-- ==== Sys2Proof/Config.lean ====
section
/-! DEFINITION. The parameters of `intcode_core` that the spec fixes (spec/00_scope.md R5). No value of this machine is
left open (R12), so there is no free value here. -/

namespace Sys2Proof.Config

/-- `WORD_BITS`, written W: 64, two's complement (R5, spec/92_eei_decisions.md D2). -/
abbrev wordBits : Nat := 64

/-- `WORD_MIN` = -2^(W-1) (R5). -/
def wordMin : Int := -9223372036854775808

/-- `WORD_MAX` = 2^(W-1) - 1, the largest Word and the largest address (R5, R40). -/
def wordMax : Int := 9223372036854775807

/-- The longest program image, one cell for each of the 2^(W-1) addresses (spec/70_reset_and_hazards.md R201). -/
def maxImageLength : Nat := 9223372036854775808

end Sys2Proof.Config
end

