-- ==== Sys2Proof/Word.lean ====
section
/-! DEFINITION. The Word and the closed sets of names that both the decoder and the machine speak of: parameter modes,
raw parameters with their mode, fault kinds. -/

namespace Sys2Proof

/-- A Word: a signed two's-complement integer of `WORD_BITS` bits (spec/00_scope.md R5, R6). The rules read it through
`toInt`; no rule of the machine looks at its bits. -/
abbrev Word := BitVec Config.wordBits

/-- The three parameter modes (spec/30_encoding.md R66). -/
inductive Mode where
  | position
  | immediate
  | relative
deriving DecidableEq, Repr

/-- A parameter slot: its mode digit and its raw parameter, a whole Word used as it stands (R66, R68). -/
structure Param where
  mode : Mode
  raw  : Word
deriving DecidableEq, Repr

/-- The three kinds of fault a core raises (spec/60_exceptions.md R170, R172). -/
inductive FaultKind where
  /-- the instruction word is negative, or its opcode is none of the ten -/
  | unknownOpcode
  /-- a mode digit above 2, a digit above the fifth, or mode 1 for a write parameter -/
  | invalidMode
  /-- a computed address, a parameter cell, a taken jump's target or a successor outside 0..WORD_MAX -/
  | negativeAddress
deriving DecidableEq, Repr

end Sys2Proof
end

