-- ==== Sys2Proof/Machine/Alu.lean ====
section
/-! DEFINITION. The adders and the multiplier of the block `intcode_alu_unit` (spec/40_stepping_engine.md section 3):
computed exactly in the integers, then narrowed. -/

namespace Sys2Proof.Machine

/-- `wrap_W(z)`: the Word congruent to z modulo 2^W (spec/00_scope.md R7). -/
def wrapW (z : Int) : Word := BitVec.ofInt Config.wordBits z

/-- `alu_add` (R86): wraps, no flag, no fault. -/
def aluAdd (a b : Word) : Word := wrapW (a.toInt + b.toInt)

/-- `alu_mul` (R87): the low W bits of the exact signed product. -/
def aluMul (a b : Word) : Word := wrapW (a.toInt * b.toInt)

/-- The relative-base adder (R90): wraps like ADD. -/
def rbAdd (rb delta : Word) : Word := wrapW (rb.toInt + delta.toInt)

/-- The range check of an exactly computed address (R91): a result outside 0..WORD_MAX is a NegativeAddress. -/
def checkAddr (z : Int) : Except FaultKind Nat :=
  if 0 ≤ z ∧ z ≤ Config.wordMax then .ok z.toNat else .error .negativeAddress

end Sys2Proof.Machine
end

