-- ==== Sys2Proof/Machine/Flags.lean ====
section
/-! DEFINITION. The machine has no flags (spec/10_state.md R24). What other machines compute as flags are here the two
comparisons, whose result is the Word 1 or 0, and the zero test of the jumps (spec/40_stepping_engine.md R88, R89). -/

namespace Sys2Proof.Machine

/-- The Word a comparison writes: exactly 1 or 0 (spec/44_compare.md R130). -/
def truthWord (b : Bool) : Word := if b then 1 else 0

/-- `alu_lt` (R88): the order of the signed integers. -/
def aluLt (a b : Word) : Word := truthWord (decide (a.toInt < b.toInt))

/-- `alu_eq` (R89): integer equality. -/
def aluEq (a b : Word) : Word := truthWord (decide (a.toInt = b.toInt))

/-- The condition of JT (R89): every non-zero Word, negative ones included, counts as true. -/
def condTrue (a : Word) : Bool := decide (a.toInt ≠ 0)

/-- The condition of JF (R89). -/
def condFalse (a : Word) : Bool := decide (a.toInt = 0)

end Sys2Proof.Machine
end

