-- ==== Sys2Proof/Machine/State.lean ====
section
/-! DEFINITION. The state of one core: the whole tuple of spec/10_state.md R20 and nothing else, with its reset value;
and the reasons for which the model stops. No instruction of this machine stops the model: a fault of the core is a
next state (spec/60_exceptions.md R171). -/

namespace Sys2Proof.Machine

/-- The run status (spec/10_state.md R25). -/
inductive Status where
  /-- reset done, never resumed -/
  | ready
  /-- executing instructions inside a `Resume` -/
  | running
  /-- suspended at an IN that found the input queue empty -/
  | awaitingInput
  /-- HLT was executed; terminal -/
  | halted
  /-- a fault was raised; terminal -/
  | faulted
deriving DecidableEq, Repr

/-- The spec's numeric codes of the statuses (R25, spec/92_eei_decisions.md D7). -/
def Status.code : Status → Nat
  | .ready => 0
  | .running => 1
  | .awaitingInput => 2
  | .halted => 3
  | .faulted => 4

/-- The memory: pairs of a cell's address and its Word, in the canonical form `Memory.wf`. A cell is one indivisible
Word (spec/20_memory.md R40, R45; DEDUCED, log entry 1). -/
abbrev Memory := List (Nat × Word)

/-- What an unlisted address reads as (spec/20_memory.md R41). -/
def Memory.unlisted : Word := 0

/-- The canonical form: addresses strictly rising, none above WORD_MAX, and no entry equal to what an unlisted address
reads as. -/
abbrev Memory.wf (m : Memory) : Prop :=
  List.Pairwise (fun x y : Nat × Word => x.1 < y.1) m ∧
    ∀ c ∈ m, c.2 ≠ Memory.unlisted ∧ (c.1 : Int) ≤ Config.wordMax

/-- The state of one core (spec/10_state.md R20). -/
structure State where
  /-- the memory (R30) -/
  mem : Memory
  /-- the instruction pointer, never negative in a state a run reaches (R22, R32) -/
  ip : Word
  /-- the relative base, any sign (R27) -/
  rb : Word
  /-- the input queue, oldest first (R28) -/
  inQ : List Word
  /-- the output queue, oldest first (R29) -/
  outQ : List Word
  /-- the run status (R25) -/
  status : Status
  /-- the fault kind; `none` is the spec's value None (R26) -/
  faultKind : Option FaultKind
deriving DecidableEq, Repr

/-- The spec's numeric codes of `fault_kind` (R26, spec/92_eei_decisions.md D7). -/
def faultKindCode : Option FaultKind → Nat
  | none => 0
  | some .unknownOpcode => 1
  | some .invalidMode => 2
  | some .negativeAddress => 3

/-- Where the model is stuck: a move the spec says does not exist. No instruction and no `step` answers one. -/
inductive Fault where
  /-- Raised by `hostCommand`: a host command on a core whose status is Running has no move
  (spec/50_machine_controller.md R151, spec/93_implementation_defined.md P3). Safe: the model stops (DEDUCED, log
  entry 9). -/
  | commandWhileRunning
deriving DecidableEq, Repr

/-- What the model refuses. No instruction and no `step` answers one. -/
inductive Refusal where
  /-- For an instruction without a meaning; no arm of `exec` answers it. Safe: the model stops. -/
  | notModelled (mnemonic : String)
  /-- Raised by `hostCommand`: `Peek` of an address outside 0..WORD_MAX is refused by the interface
  (spec/50_machine_controller.md R157, D23). Safe: no state changes (DEDUCED, log entry 11). -/
  | peekOutsideMemory
  /-- Raised by `hostCommand`: `Reset` with an image longer than the address space is never given to a core
  (spec/93_implementation_defined.md P5). Safe: no state changes (DEDUCED, log entry 12). -/
  | imageTooLong
  /-- Raised by `hostCommand` and `runPipeline`: the fuel of a model's run ran out, "did not finish", which is no
  machine state (spec/50_machine_controller.md R158). Safe: the model says nothing of the longer run (DESIGN CHOICE,
  log entry 10). -/
  | didNotFinish
  /-- Raised by `runPipeline`: a pipeline has N >= 1 cores (spec/00_scope.md R5). Safe: the model stops (DESIGN
  CHOICE, log entry 14). -/
  | emptyPipeline
deriving DecidableEq, Repr

/-- The state right after `Reset` of the empty image (spec/10_state.md R31; DESIGN CHOICE, log entry 6). -/
def State.reset : State where
  mem := []
  ip := 0
  rb := 0
  inQ := []
  outQ := []
  status := .ready
  faultKind := none

/-! One update for each field, so that later lemmas name an update and never a record. -/

/-- `s` with another memory. -/
def State.setMem (s : State) (m : Memory) : State := { s with mem := m }
/-- `s` with another instruction pointer. -/
def State.setIp (s : State) (a : Word) : State := { s with ip := a }
/-- `s` with another relative base. -/
def State.setRb (s : State) (b : Word) : State := { s with rb := b }
/-- `s` with another input queue. -/
def State.setInQ (s : State) (q : List Word) : State := { s with inQ := q }
/-- `s` with another output queue. -/
def State.setOutQ (s : State) (q : List Word) : State := { s with outQ := q }
/-- `s` with another run status. -/
def State.setStatus (s : State) (x : Status) : State := { s with status := x }
/-- `s` with another fault kind. -/
def State.setFaultKind (s : State) (k : Option FaultKind) : State := { s with faultKind := k }

end Sys2Proof.Machine
end

