-- ==== Sys2Proof/Machine/Ops.lean ====
section
/-! DEFINITION. The named operations over memory and registers, raising a fault, and `Reset`, the only way out of one.
-/

namespace Sys2Proof.Machine

/-! ### Memory (spec/20_memory.md) -/

/-- The Word at an address (R41). -/
def Memory.read : Memory → Nat → Word
  | [], _ => Memory.unlisted
  | (b, w) :: m, a => if a = b then w else Memory.read m a

/-- Put a Word at the front of a memory, unless it is what an unlisted address reads as. -/
def Memory.push (a : Nat) (v : Word) (m : Memory) : Memory :=
  if v = Memory.unlisted then m else (a, v) :: m

/-- The memory equal to the old one everywhere except at `a`, where it is `v` (R43); keeps the canonical form. -/
def Memory.write : Memory → Nat → Word → Memory
  | [], a, v => Memory.push a v []
  | (b, w) :: m, a, v =>
    if a < b then Memory.push a v ((b, w) :: m)
    else if a = b then Memory.push a v m
    else (b, w) :: Memory.write m a v

/-- A program image laid out from address `base` upward (spec/10_state.md R31). -/
def Memory.ofImage : Nat → List Word → Memory
  | _, [] => []
  | base, v :: vs => Memory.push base v (Memory.ofImage (base + 1) vs)

/-- `MemRead(a, 1)` for an integer address (R42). An address above WORD_MAX does not exist and is treated as the engine
treats it (DEDUCED, log entry 8). -/
def memRead (m : Memory) (a : Int) : Except FaultKind Word :=
  match checkAddr a with
  | .ok n => .ok (m.read n)
  | .error k => .error k

/-- `MemWrite(a, 1, v)` for an integer address (R43). -/
def memWrite (m : Memory) (a : Int) (v : Word) : Except FaultKind Memory :=
  match checkAddr a with
  | .ok n => .ok (m.write n v)
  | .error k => .error k

/-- The Word in a cell of a state's memory. -/
def State.cell (s : State) (a : Nat) : Word := s.mem.read a

/-- The state after one cell is stored to. -/
def State.store (s : State) (a : Nat) (v : Word) : State := s.setMem (s.mem.write a v)

/-! ### Faults (spec/60_exceptions.md) -/

/-- `raise K` (R171): status becomes Faulted, `fault_kind` becomes K, nothing else changes; `ip` keeps the address of
the faulting instruction. There is no handler and no saved register (R175). -/
def raise (k : FaultKind) (s : State) : State := (s.setStatus .faulted).setFaultKind (some k)

/-- There is no return from a fault (R176): Faulted is left only by `Reset(program)`, which puts every component at its
reset value (spec/10_state.md R31, spec/50_machine_controller.md R156). -/
def State.load (program : List Word) : State := State.reset.setMem (Memory.ofImage 0 program)

/-- The end of a `Step`: the stages' resolved effect is committed whole, or the first fault they met is raised and
nothing else changes (spec/40_stepping_engine.md R93). Both are next states. -/
def conclude (s : State) : Except FaultKind State → Host.Outcome State Fault Refusal
  | .ok t => .next t
  | .error k => .next (raise k s)

/-! ### The address and ip adders (spec/40_stepping_engine.md R91) -/

/-- Stage 2's check (R82): the n parameter cells end at or below WORD_MAX. -/
def paramCells (s : State) (n : Nat) : Except FaultKind Unit :=
  if s.ip.toInt + n > Config.wordMax then .error .negativeAddress else .ok ()

/-- The sequential successor (R85): `ip + len`, computed exactly. -/
def seqNext (s : State) (len : Nat) : Except FaultKind Word :=
  if s.ip.toInt + len > Config.wordMax then .error .negativeAddress
  else .ok (wrapW (s.ip.toInt + len))

/-- The target of a taken jump (R85): any Word that is not negative. -/
def jumpTarget (t : Word) : Except FaultKind Word :=
  if t.toInt < 0 then .error .negativeAddress else .ok t

end Sys2Proof.Machine
end

