-- ==== Sys2Proof/Syntax.lean ====
section
/-! DEFINITION. The instruction set: one constructor for each of the ten rows of spec/opcode_table.json
(spec/30_encoding.md R65). -/

namespace Sys2Proof

/-- An instruction with its parameters. `p1`, `p2`, `p3` are the parameter slots the opcode has (R63); `u1`, `u2`, `u3`
are the mode digits of slots it lacks, which must be 0, 1 or 2 and are otherwise ignored (R70). They are kept so that a
decoded term says every digit of its instruction word (DESIGN CHOICE, log entry 2). -/
inductive Instr where
  /-- ADD (1): write3 = read1 + read2 (R100) -/
  | add (p1 p2 p3 : Param)
  /-- MUL (2): write3 = read1 * read2 (R101) -/
  | mul (p1 p2 p3 : Param)
  /-- IN (3): write1 = the head of the input queue, or suspend (R110) -/
  | inp (p1 : Param) (u2 u3 : Mode)
  /-- OUT (4): append read1 to the output queue (R111) -/
  | out (p1 : Param) (u2 u3 : Mode)
  /-- JT (5): jump to read2 if read1 is not 0 (R120) -/
  | jt (p1 p2 : Param) (u3 : Mode)
  /-- JF (6): jump to read2 if read1 is 0 (R121) -/
  | jf (p1 p2 : Param) (u3 : Mode)
  /-- LT (7): write3 = 1 if read1 < read2, else 0 (R130) -/
  | lt (p1 p2 p3 : Param)
  /-- EQ (8): write3 = 1 if read1 = read2, else 0 (R131) -/
  | eq (p1 p2 p3 : Param)
  /-- ARB (9): rb = rb + read1 (R140) -/
  | arb (p1 : Param) (u2 u3 : Mode)
  /-- HLT (99): halt (R145) -/
  | hlt (u1 u2 u3 : Mode)
deriving DecidableEq, Repr

end Sys2Proof
end

