-- ==== Sys2Proof/WellFormed.lean ====
section
/-! DEFINITION. The one check an instruction term must pass: a write parameter is not immediate (spec/30_encoding.md
R67). Everything else an encoding must satisfy is carried by the types. -/

namespace Sys2Proof

/-- The parameter may be written to: mode 0 or 2, never 1 (R67). -/
def Param.writable (p : Param) : Bool := p.mode != .immediate

/-- `CheckWriteMode` on a term (R67): parameter 3 of ADD, MUL, LT, EQ and parameter 1 of IN. -/
def Instr.wf : Instr → Bool
  | .add _ _ p3 => p3.writable
  | .mul _ _ p3 => p3.writable
  | .inp p1 _ _ => p1.writable
  | .out _ _ _  => true
  | .jt _ _ _   => true
  | .jf _ _ _   => true
  | .lt _ _ p3  => p3.writable
  | .eq _ _ p3  => p3.writable
  | .arb _ _ _  => true
  | .hlt _ _ _  => true

end Sys2Proof
end

