-- ==== Sys2Proof/Machine/Operands.lean ====
section
/-! DEFINITION. Operand resolution (spec/40_stepping_engine.md section 2) and the stages that instructions of one shape
share (R80): write-mode check, parameter cells, operands in slot order, successor, commit. -/

namespace Sys2Proof.Machine

/-- `ReadOperand` (R83). -/
def readOperand (s : State) (p : Param) : Except FaultKind Word :=
  match p.mode with
  | .immediate => .ok p.raw
  | .position  => memRead s.mem p.raw.toInt
  | .relative  => memRead s.mem (p.raw.toInt + s.rb.toInt)

/-- `WriteAddr` (R84): the target is the parameter itself, never the cell it names; an immediate one is invalid
(spec/30_encoding.md R67). -/
def writeAddr (s : State) (p : Param) : Except FaultKind Nat :=
  match p.mode with
  | .immediate => .error .invalidMode
  | .position  => checkAddr p.raw.toInt
  | .relative  => checkAddr (p.raw.toInt + s.rb.toInt)

/-- `CheckWriteMode` (spec/30_encoding.md R67), before any parameter cell is read (R81). The decoder makes the same
check; here it gives a term no word decodes to the fault the rule names (DEDUCED, log entry 7). -/
def checkWritable (p : Param) : Except FaultKind Unit :=
  if p.writable then .ok () else .error .invalidMode

/-- The stages of ADD, MUL, LT and EQ: read two operands, write `f` of them, advance by 4 (R80). -/
def storeResult (f : Word → Word → Word) (p1 p2 p3 : Param) (s : State) : Except FaultKind State := do
  checkWritable p3
  paramCells s 3
  let r1 ← readOperand s p1
  let r2 ← readOperand s p2
  let wa ← writeAddr s p3
  let nip ← seqNext s 4
  return (s.store wa (f r1 r2)).setIp nip

/-- The stages of JT and JF: both operands are resolved whether or not the jump is taken (R94), the target is checked
only when it is (R85). -/
def jumpWhen (taken : Word → Bool) (p1 p2 : Param) (s : State) : Except FaultKind State := do
  paramCells s 2
  let r1 ← readOperand s p1
  let r2 ← readOperand s p2
  let nip ← if taken r1 then jumpTarget r2 else seqNext s 3
  return s.setIp nip

/-- The stages of IN (spec/42_io.md R110): every check comes before the queue is looked at (R95). -/
def takeInput (p1 : Param) (s : State) : Except FaultKind State := do
  checkWritable p1
  paramCells s 1
  let wa ← writeAddr s p1
  let nip ← seqNext s 2
  match s.inQ with
  | [] => return s.setStatus .awaitingInput
  | v :: rest => return ((s.setInQ rest).store wa v).setIp nip

/-- The stages of OUT and ARB: one operand, an effect `g` of it, advance by 2 (R80). -/
def useOperand (g : Word → State → State) (p1 : Param) (s : State) : Except FaultKind State := do
  paramCells s 1
  let r1 ← readOperand s p1
  let nip ← seqNext s 2
  return (g r1 s).setIp nip

end Sys2Proof.Machine
end

