-- ==== Sys2Proof/Machine/Arith.lean ====
section
/-! DEFINITION. ADD and MUL (spec/41_arithmetic.md). -/

namespace Sys2Proof.Machine

/-- ADD: write3 = wrap(read1 + read2); ip += 4 (R100). -/
def execAdd (p1 p2 p3 : Param) (s : State) : Host.Outcome State Fault Refusal :=
  conclude s (storeResult aluAdd p1 p2 p3 s)

/-- MUL: write3 = wrap(read1 * read2); ip += 4 (R101). -/
def execMul (p1 p2 p3 : Param) (s : State) : Host.Outcome State Fault Refusal :=
  conclude s (storeResult aluMul p1 p2 p3 s)

end Sys2Proof.Machine
end

