-- ==== Sys2Proof/Machine/Compare.lean ====
section
/-! DEFINITION. LT and EQ (spec/44_compare.md). -/

namespace Sys2Proof.Machine

/-- LT: write3 = 1 if read1 < read2 as signed integers, else 0; ip += 4 (R130). -/
def execLt (p1 p2 p3 : Param) (s : State) : Host.Outcome State Fault Refusal :=
  conclude s (storeResult aluLt p1 p2 p3 s)

/-- EQ: write3 = 1 if read1 = read2, else 0; ip += 4 (R131). -/
def execEq (p1 p2 p3 : Param) (s : State) : Host.Outcome State Fault Refusal :=
  conclude s (storeResult aluEq p1 p2 p3 s)

end Sys2Proof.Machine
end

