-- ==== Sys2Proof/Machine/Halt.lean ====
section
/-! DEFINITION. HLT (spec/46_halt.md). -/

namespace Sys2Proof.Machine

/-- HLT: status becomes Halted, ip keeps the address of the HLT; no successor is computed (R145). -/
def execHlt (s : State) : Host.Outcome State Fault Refusal := .next (s.setStatus .halted)

end Sys2Proof.Machine
end

