-- ==== Sys2Proof/Machine/InOut.lean ====
section
/-! DEFINITION. IN and OUT (spec/42_io.md). -/

namespace Sys2Proof.Machine

/-- IN: on an empty input queue only the status changes, to AwaitingInput; else the head is stored and ip += 2 (R110).
-/
def execInp (p1 : Param) (s : State) : Host.Outcome State Fault Refusal :=
  conclude s (takeInput p1 s)

/-- OUT: read1 is appended to the output queue; ip += 2; the core keeps running (R111). -/
def execOut (p1 : Param) (s : State) : Host.Outcome State Fault Refusal :=
  conclude s (useOperand (fun r t => t.setOutQ (t.outQ ++ [r])) p1 s)

end Sys2Proof.Machine
end

