-- ==== Sys2Proof/Machine/Jumps.lean ====
section
/-! DEFINITION. JT and JF (spec/43_jumps.md). -/

namespace Sys2Proof.Machine

/-- JT: ip = read2 if read1 is not 0, else ip += 3 (R120). -/
def execJt (p1 p2 : Param) (s : State) : Host.Outcome State Fault Refusal :=
  conclude s (jumpWhen condTrue p1 p2 s)

/-- JF: ip = read2 if read1 is 0, else ip += 3 (R121). -/
def execJf (p1 p2 : Param) (s : State) : Host.Outcome State Fault Refusal :=
  conclude s (jumpWhen condFalse p1 p2 s)

end Sys2Proof.Machine
end

