-- ==== Sys2Proof/Machine/RelBase.lean ====
section
/-! DEFINITION. ARB (spec/45_relative_base.md). -/

namespace Sys2Proof.Machine

/-- ARB: rb = wrap(rb + read1), the operand resolved with the old rb; ip += 2 (R140). -/
def execArb (p1 : Param) (s : State) : Host.Outcome State Fault Refusal :=
  conclude s (useOperand (fun r t => t.setRb (rbAdd t.rb r)) p1 s)

end Sys2Proof.Machine
end

