-- ==== Sys2Proof/Decode.lean ====
section
/-! DEFINITION. The decoder (spec/30_encoding.md), and after it the encoder. An encoding is decimal: fields are digits
of the instruction word, and parameters are the whole Words in the cells after it. -/

namespace Sys2Proof

/-- The ten operations a decoded instruction word may name (R65). -/
inductive Opcode where
  | add | mul | inp | out | jt | jf | lt | eq | arb | hlt
deriving DecidableEq, Repr

/-- What `Decode` returns: the operation and the three mode digits (R62). -/
structure Header where
  op : Opcode
  m1 : Mode
  m2 : Mode
  m3 : Mode
deriving DecidableEq, Repr

/-- `digit(w, i)`, the i-th decimal digit, digit 0 the units (spec/00_scope.md R6). -/
def digit (w i : Nat) : Nat := w / 10 ^ i % 10

/-- The opcode map (R65), from the value of digits 1 and 0. -/
def opcodeOf : Nat → Option Opcode
  | 1 => some .add
  | 2 => some .mul
  | 3 => some .inp
  | 4 => some .out
  | 5 => some .jt
  | 6 => some .jf
  | 7 => some .lt
  | 8 => some .eq
  | 9 => some .arb
  | 99 => some .hlt
  | _ => none

/-- The mode named by a mode digit; every other digit is invalid (R66). -/
def modeOf : Nat → Option Mode
  | 0 => some .position
  | 1 => some .immediate
  | 2 => some .relative
  | _ => none

/-- `Decode` (R62): a pure function of the instruction word, its tests in the order of the rule. -/
def decodeWord (w : Word) : Except FaultKind Header :=
  if w.toInt < 0 then .error .unknownOpcode
  else
    match opcodeOf (w.toNat % 100) with
    | none => .error .unknownOpcode
    | some op =>
      match modeOf (digit w.toNat 2), modeOf (digit w.toNat 3), modeOf (digit w.toNat 4) with
      | some m1, some m2, some m3 =>
        if w.toNat / 100000 ≠ 0 then .error .invalidMode else .ok ⟨op, m1, m2, m3⟩
      | _, _, _ => .error .invalidMode

/-- `wslot` (spec/40_stepping_engine.md R80) read off a header: the mode of the write parameter, if there is one. -/
def Header.writeMode (h : Header) : Option Mode :=
  match h.op with
  | .add => some h.m3
  | .mul => some h.m3
  | .inp => some h.m1
  | .out => none
  | .jt  => none
  | .jf  => none
  | .lt  => some h.m3
  | .eq  => some h.m3
  | .arb => none
  | .hlt => none

/-- `CheckWriteMode` (R67): made immediately after `Decode`, before any parameter cell is read. -/
def checkWriteMode (h : Header) : Except FaultKind Header :=
  if h.writeMode = some .immediate then .error .invalidMode else .ok h

/-- Take one parameter cell. A missing cell is one above WORD_MAX (spec/40_stepping_engine.md R82). -/
def take1 (build : Word → Instr) : List Word → Except FaultKind (Instr × List Word)
  | a :: rest => .ok (build a, rest)
  | [] => .error .negativeAddress

/-- Take two parameter cells (R82). -/
def take2 (build : Word → Word → Instr) : List Word → Except FaultKind (Instr × List Word)
  | a :: rest => take1 (build a) rest
  | [] => .error .negativeAddress

/-- Take three parameter cells (R82). -/
def take3 (build : Word → Word → Word → Instr) : List Word → Except FaultKind (Instr × List Word)
  | a :: rest => take2 (build a) rest
  | [] => .error .negativeAddress

/-- The parameter cells an opcode has (R63), put together with its header. -/
def assemble (h : Header) (cells : List Word) : Except FaultKind (Instr × List Word) :=
  match h.op with
  | .add => take3 (fun a b c => .add ⟨h.m1, a⟩ ⟨h.m2, b⟩ ⟨h.m3, c⟩) cells
  | .mul => take3 (fun a b c => .mul ⟨h.m1, a⟩ ⟨h.m2, b⟩ ⟨h.m3, c⟩) cells
  | .inp => take1 (fun a => .inp ⟨h.m1, a⟩ h.m2 h.m3) cells
  | .out => take1 (fun a => .out ⟨h.m1, a⟩ h.m2 h.m3) cells
  | .jt  => take2 (fun a b => .jt ⟨h.m1, a⟩ ⟨h.m2, b⟩ h.m3) cells
  | .jf  => take2 (fun a b => .jf ⟨h.m1, a⟩ ⟨h.m2, b⟩ h.m3) cells
  | .lt  => take3 (fun a b c => .lt ⟨h.m1, a⟩ ⟨h.m2, b⟩ ⟨h.m3, c⟩) cells
  | .eq  => take3 (fun a b c => .eq ⟨h.m1, a⟩ ⟨h.m2, b⟩ ⟨h.m3, c⟩) cells
  | .arb => take1 (fun a => .arb ⟨h.m1, a⟩ h.m2 h.m3) cells
  | .hlt => .ok (.hlt h.m1 h.m2 h.m3, cells)

/-- The decoder over the cells from the instruction word on: the instruction and the cells after it, or the fault that
stages 1 and 2 of `Step` raise, in their order (spec/40_stepping_engine.md R80 to R82). -/
def decode : List Word → Except FaultKind (Instr × List Word)
  | [] => .error .negativeAddress
  | w :: cells =>
    match decodeWord w with
    | .error k => .error k
    | .ok h =>
      match checkWriteMode h with
      | .error k => .error k
      | .ok h => assemble h cells

/-! ### The encoder (R76) -/

/-- The opcode's number (R65). -/
def Opcode.number : Opcode → Nat
  | .add => 1
  | .mul => 2
  | .inp => 3
  | .out => 4
  | .jt  => 5
  | .jf  => 6
  | .lt  => 7
  | .eq  => 8
  | .arb => 9
  | .hlt => 99

/-- `nparams` (spec/40_stepping_engine.md R80). -/
def Opcode.nparams : Opcode → Nat
  | .add => 3
  | .mul => 3
  | .inp => 1
  | .out => 1
  | .jt  => 2
  | .jf  => 2
  | .lt  => 3
  | .eq  => 3
  | .arb => 1
  | .hlt => 0

/-- The mode's digit (R66). -/
def Mode.digit : Mode → Nat
  | .position  => 0
  | .immediate => 1
  | .relative  => 2

/-- The instruction word of a header: op + 100 m1 + 1000 m2 + 10000 m3 (R76). -/
def encodeWord (h : Header) : Word :=
  BitVec.ofNat Config.wordBits
    (h.op.number + 100 * h.m1.digit + 1000 * h.m2.digit + 10000 * h.m3.digit)

/-- The header of an instruction term. -/
def Instr.header : Instr → Header
  | .add p1 p2 p3 => ⟨.add, p1.mode, p2.mode, p3.mode⟩
  | .mul p1 p2 p3 => ⟨.mul, p1.mode, p2.mode, p3.mode⟩
  | .inp p1 u2 u3 => ⟨.inp, p1.mode, u2, u3⟩
  | .out p1 u2 u3 => ⟨.out, p1.mode, u2, u3⟩
  | .jt p1 p2 u3  => ⟨.jt, p1.mode, p2.mode, u3⟩
  | .jf p1 p2 u3  => ⟨.jf, p1.mode, p2.mode, u3⟩
  | .lt p1 p2 p3  => ⟨.lt, p1.mode, p2.mode, p3.mode⟩
  | .eq p1 p2 p3  => ⟨.eq, p1.mode, p2.mode, p3.mode⟩
  | .arb p1 u2 u3 => ⟨.arb, p1.mode, u2, u3⟩
  | .hlt u1 u2 u3 => ⟨.hlt, u1, u2, u3⟩

/-- The parameter slots of an instruction, in order (R63). -/
def Instr.params : Instr → List Param
  | .add p1 p2 p3 => [p1, p2, p3]
  | .mul p1 p2 p3 => [p1, p2, p3]
  | .inp p1 _ _ => [p1]
  | .out p1 _ _ => [p1]
  | .jt p1 p2 _ => [p1, p2]
  | .jf p1 p2 _ => [p1, p2]
  | .lt p1 p2 p3 => [p1, p2, p3]
  | .eq p1 p2 p3 => [p1, p2, p3]
  | .arb p1 _ _ => [p1]
  | .hlt _ _ _ => []

/-- The length in cells, one for the instruction word and one for each parameter (R60, R64). -/
def Instr.len (i : Instr) : Nat := 1 + i.header.op.nparams

/-- The cells of an instruction: its word, then its raw parameters (R60, R72). -/
def encode (i : Instr) : List Word := encodeWord i.header :: i.params.map Param.raw

/-! ### The host's numbering of an instruction's bits -/

/-- The four cells an instruction can occupy, from a number that lays the first cell in its lowest `WORD_BITS` bits, the
next above it and so on; bits from `nbits` up are 0 (DESIGN CHOICE, log entry 13). -/
def tableCells (nbits w : Nat) : List Word :=
  (List.range 4).map fun k =>
    BitVec.ofNat Config.wordBits (w % 2 ^ nbits / 2 ^ (Config.wordBits * k))

/-- The instruction the decoder reads from those cells. -/
def decodeTableWord (nbits w : Nat) : Option Instr :=
  match decode (tableCells nbits w) with
  | .ok (i, _) => some i
  | .error _ => none

end Sys2Proof
end

