-- ==== Sys2Proof/Machine/Fetch.lean ====
section
/-! DEFINITION. Fetching the instruction at `ip` (spec/40_stepping_engine.md R80, stages 1 and 2), and placing one
there. -/

namespace Sys2Proof.Machine

/-- The cells from `ip` on, at most four, none above WORD_MAX. Reading a cell the instruction turns out not to have
has no effect (spec/20_memory.md R47). -/
def cellsFrom (s : State) (a : Nat) : List Word :=
  ((List.range 4).filter fun k => decide (((a + k : Nat) : Int) ≤ Config.wordMax)).map fun k => s.cell (a + k)

/-- Stages 1 and 2: the instruction word is read and decoded, its write mode checked, its parameter cells read (R81,
R82). A negative `ip`, which no run reaches, is `MemRead`'s own fault (spec/20_memory.md R42; DEDUCED, log entry 7).
-/
def fetch (s : State) : Except FaultKind Instr :=
  match checkAddr s.ip.toInt with
  | .error k => .error k
  | .ok a =>
    match decode (cellsFrom s a) with
    | .error k => .error k
    | .ok (i, _) => .ok i

/-- Store cells one after another from an address on, leaving out any above WORD_MAX. -/
def Memory.writeAll : Memory → Nat → List Word → Memory
  | m, _, [] => m
  | m, a, v :: vs =>
    Memory.writeAll (if (a : Int) ≤ Config.wordMax then m.write a v else m) (a + 1) vs

end Sys2Proof.Machine
end

