-- ==== Sys2Proof/Machine/Step.lean ====
section
/-! DEFINITION. One step of the machine. -/

namespace Sys2Proof.Machine

/-- While the status is Running, one `Step` (spec/40_stepping_engine.md R80): fetch and decode, then execute; a fault
of the fetch is raised like any other (R171). In every other status the core does nothing until the host commands it
(spec/60_exceptions.md R183, spec/70_reset_and_hazards.md R202): the state stays as it is (DEDUCED, log entry 5). The
status is looked at here and not in the meanings (DESIGN CHOICE, log entry 3). -/
def step (s : State) : Host.Outcome State Fault Refusal :=
  match s.status with
  | .running =>
    match fetch s with
    | .ok i => exec i s
    | .error k => .next (raise k s)
  | .ready => .next s
  | .awaitingInput => .next s
  | .halted => .next s
  | .faulted => .next s

/-- The state in which the very next step runs the given instruction: its cells stored from `ip` on, and the status
Running, as `Reset` with an image and `Resume` would have it (DESIGN CHOICE, log entries 6, 13). -/
def State.withFetchWord (s : State) (nbits w : Nat) : State :=
  (s.setMem (Memory.writeAll s.mem s.ip.toNat (tableCells nbits w))).setStatus .running

end Sys2Proof.Machine
end

