-- ==== Sys2Proof/Machine/Controller.lean ====
section
/-! DEFINITION. The host commands and the run loop of the block `intcode_machine_state_controller`
(spec/50_machine_controller.md). -/

namespace Sys2Proof.Machine

/-- What `Peek` may name (R157). -/
inductive PeekTarget where
  | status | faultKind | ip | rb | inQ | outQ
  /-- the cell at an address -/
  | mem (a : Int)
deriving DecidableEq, Repr

/-- The five host commands (R150). -/
inductive Command where
  | reset (program : List Word)
  | pushInput (v : Word)
  | resume
  | drainOutput
  | peek (what : PeekTarget)
deriving DecidableEq, Repr

/-- What a command returns (R150). -/
inductive Reply where
  /-- no result -/
  | done
  /-- a run status -/
  | status (x : Status)
  /-- a fault kind, `none` for the spec's None -/
  | faultKind (k : Option FaultKind)
  /-- one Word -/
  | word (v : Word)
  /-- a finite sequence of Words, oldest first -/
  | words (q : List Word)
deriving DecidableEq, Repr

/-- `PushInput(v)`: append at the tail; nothing else, not even the status, changes (R153). -/
def State.pushInput (v : Word) (s : State) : State := s.setInQ (s.inQ ++ [v])

/-- `DrainOutput()`'s effect on the state; it returns the old queue (R154). -/
def State.drained (s : State) : State := s.setOutQ []

/-- The run loop of `Resume`: `Step` while the status is Running (R155). `none` when the fuel runs out first, which is
no machine state (R158; DESIGN CHOICE, log entry 10). -/
def runLoop : Nat → State → Option State
  | 0, s => if s.status = .running then none else some s
  | fuel + 1, s =>
    if s.status = .running then
      match step s with
      | .next t => runLoop fuel t
      | .fault _ => none
      | .refused _ => none
    else some s

/-- `Resume()`: no effect on a Halted or Faulted core, else Running until the loop exits (R155). -/
def resume (fuel : Nat) (s : State) : Option State :=
  match s.status with
  | .halted => some s
  | .faulted => some s
  | .ready => runLoop fuel (s.setStatus .running)
  | .awaitingInput => runLoop fuel (s.setStatus .running)
  | .running => none

/-- `Peek`: the named component, or a refusal outside 0..WORD_MAX (R157). -/
def peekReply (s : State) : PeekTarget → Except Refusal Reply
  | .status => .ok (.status s.status)
  | .faultKind => .ok (.faultKind s.faultKind)
  | .ip => .ok (.word s.ip)
  | .rb => .ok (.word s.rb)
  | .inQ => .ok (.words s.inQ)
  | .outQ => .ok (.words s.outQ)
  | .mem a =>
    match memRead s.mem a with
    | .ok v => .ok (.word v)
    | .error _ => .error .peekOutsideMemory

/-- A host command on a core that is not Running (R152 to R157). -/
def runCommand (fuel : Nat) (s : State) : Command → Host.Outcome (State × Reply) Fault Refusal
  | .reset program =>
    if program.length ≤ Config.maxImageLength then .next (State.load program, .done)
    else .refused .imageTooLong
  | .pushInput v => .next (s.pushInput v, .done)
  | .resume =>
    match resume fuel s with
    | some t => .next (t, .status t.status)
    | none => .refused .didNotFinish
  | .drainOutput => .next (s.drained, .words s.outQ)
  | .peek what =>
    match peekReply s what with
    | .ok r => .next (s, r)
    | .error e => .refused e

/-- A host command as an atomic transaction: it has no move while the core is Running (R151; DEDUCED, log entry 9). -/
def hostCommand (fuel : Nat) (c : Command) (s : State) : Host.Outcome (State × Reply) Fault Refusal :=
  if s.status = .running then .fault .commandWhileRunning else runCommand fuel s c

end Sys2Proof.Machine
end

