-- ==== Sys2Proof/Machine/Pipeline.lean ====
section
/-! DEFINITION. Several cores under the pipeline driver (spec/60_exceptions.md section 5). The driver is a host: it is
not part of a core's state (DESIGN CHOICE, log entry 14). -/

namespace Sys2Proof.Machine

/-- The driver's state: its cores, the core to resume next, the last value core N-1 emitted, and the count of idle
iterations in a row (R186). -/
structure Pipeline where
  cores : List State
  turn  : Nat
  final : Option Word
  idle  : Nat
deriving DecidableEq, Repr

/-- How a pipeline run ends (R189 to R191). -/
inductive PipelineEnd where
  /-- the core that faulted, and its fault kind (R191) -/
  | coreFault (core : Nat) (kind : Option FaultKind)
  /-- every core Halted; the last value core N-1 emitted, if any (R189) -/
  | signal (final : Option Word)
  /-- N idle iterations in a row (R190) -/
  | deadlock
deriving DecidableEq, Repr

/-- The spec's code of the driver's own error PipelineDeadlock, never a value of `fault_kind` (R190,
spec/92_eei_decisions.md D7). -/
def pipelineDeadlockCode : Nat := 4

/-- One iteration either goes on or ends the run; the cores are there either way. -/
inductive Iteration where
  | continued (p : Pipeline)
  | ended (p : Pipeline) (e : PipelineEnd)
deriving DecidableEq, Repr

/-- Push values in order (R187). -/
def State.pushAll (vs : List Word) (s : State) : State := s.setInQ (s.inQ ++ vs)

/-- Set-up (R185): each core reset from the one image with its phase pushed first, then `s0` into core 0. -/
def pipelineSetUp (program phases : List Word) (s0 : Word) : Pipeline where
  cores := (phases.map fun ph => (State.load program).pushInput ph).modify 0 (State.pushInput s0)
  turn := 0
  final := none
  idle := 0

/-- The last element of the drained outputs, or the earlier final value (R186: `final <- v` for each v in turn). -/
def lastOr (old : Option Word) (outs : List Word) : Option Word :=
  match outs.getLast? with
  | some v => some v
  | none => old

/-- One iteration of the loop (R186): resume the core whose turn it is, move its outputs to the next core, then the
exits in their order. `none` when the resume runs out of fuel. -/
def pipelineIterate (fuel : Nat) (p : Pipeline) : Option Iteration :=
  match p.cores[p.turn]? with
  | none => none
  | some before =>
    match resume fuel before with
    | none => none
    | some after =>
      let n := p.cores.length
      let outs := after.outQ
      let cores := (p.cores.set p.turn after.drained).modify ((p.turn + 1) % n) (State.pushAll outs)
      let final := if p.turn + 1 = n then lastOr p.final outs else p.final
      let idle := if after.status = before.status ∧ outs = [] then p.idle + 1 else 0
      if after.status = .faulted then
        some (.ended ⟨cores, p.turn, final, p.idle⟩ (.coreFault p.turn after.faultKind))
      else if cores.all fun c => decide (c.status = .halted) then
        some (.ended ⟨cores, p.turn, final, p.idle⟩ (.signal final))
      else if idle = n then
        some (.ended ⟨cores, p.turn, final, idle⟩ .deadlock)
      else
        some (.continued ⟨cores, (p.turn + 1) % n, final, idle⟩)

/-- The loop (R186), `rounds` bounding its iterations (DESIGN CHOICE, log entry 10). -/
def pipelineLoop (fuel : Nat) : Nat → Pipeline → Option (Pipeline × PipelineEnd)
  | 0, _ => none
  | rounds + 1, p =>
    match pipelineIterate fuel p with
    | none => none
    | some (.ended q e) => some (q, e)
    | some (.continued q) => pipelineLoop fuel rounds q

/-- `RunPipeline` (R186) with one core for each phase. -/
def runPipeline (fuel rounds : Nat) (program phases : List Word) (s0 : Word) :
    Host.Outcome (Pipeline × PipelineEnd) Fault Refusal :=
  if phases = [] then .refused .emptyPipeline
  else if Config.maxImageLength < program.length then .refused .imageTooLong
  else
    match pipelineLoop fuel rounds (pipelineSetUp program phases s0) with
    | some r => .next r
    | none => .refused .didNotFinish

end Sys2Proof.Machine
end

