-- ==== Sys2Proof/Safety.lean ====
section
/-! DEFINITION. The terms in which claims speak of the machine: what a parameter designates, when it can be resolved,
the invariant of reachable states, and a safe run. -/

namespace Sys2Proof.Machine

/-- An integer that is an address: 0..WORD_MAX (spec/20_memory.md R40). -/
abbrev isAddr (z : Int) : Prop := 0 ≤ z ∧ z ≤ Config.wordMax

/-- The effective address of a position-mode or relative-mode parameter, an exact integer sum
(spec/40_stepping_engine.md R83). -/
def effAddr (s : State) (p : Param) : Int :=
  if p.mode = .relative then p.raw.toInt + s.rb.toInt else p.raw.toInt

/-- A read parameter can be resolved: it is immediate, or its effective address is an address (R83). -/
abbrev canRead (s : State) (p : Param) : Prop := p.mode = .immediate ∨ isAddr (effAddr s p)

/-- The value of a read parameter (spec/30_encoding.md R66). -/
def valueOf (s : State) (p : Param) : Word :=
  if p.mode = .immediate then p.raw else s.cell (effAddr s p).toNat

/-- A write parameter can be resolved: it is not immediate and its effective address is an address (R84). -/
abbrev canWrite (s : State) (p : Param) : Prop := p.mode ≠ .immediate ∧ isAddr (effAddr s p)

/-- The cell a write parameter names (R84). -/
def targetOf (s : State) (p : Param) : Nat := (effAddr s p).toNat

/-- The write parameter of an instruction, the only one through which it writes memory (spec/40_stepping_engine.md R80,
`wslot`). -/
def writeParam : Instr → Option Param
  | .add _ _ p3 => some p3
  | .mul _ _ p3 => some p3
  | .inp p1 _ _ => some p1
  | .out _ _ _ => none
  | .jt _ _ _ => none
  | .jf _ _ _ => none
  | .lt _ _ p3 => some p3
  | .eq _ _ p3 => some p3
  | .arb _ _ _ => none
  | .hlt _ _ _ => none

/-- The address `n` cells after `ip` exists (spec/10_state.md R23). -/
abbrev ipRoom (s : State) (n : Nat) : Prop := s.ip.toInt + n ≤ Config.wordMax

/-- The address `n` cells after `ip`, as a Word. -/
def ipPlus (s : State) (n : Nat) : Word := BitVec.ofInt Config.wordBits (s.ip.toInt + n)

/-! ### The instruction at `ip`, read off the memory in the spec's own digits -/

/-- The instruction word (spec/30_encoding.md R61). -/
def instrWord (s : State) : Int := (s.cell s.ip.toInt.toNat).toInt

/-- The mode digit of parameter k: "`mode_k = (word / 10^(k+1)) % 10`" (R61). -/
def modeDigit (s : State) (k : Nat) : Int := instrWord s / 10 ^ (k + 1) % 10

/-- The raw parameter k, "`memory[ip + k]`" (R60). -/
def rawParam (s : State) (k : Nat) : Word := s.cell (s.ip.toInt.toNat + k)

/-- The effective address of parameter k when its digit is 0 or 2 (spec/40_stepping_engine.md R83). -/
def paramAddr (s : State) (k : Nat) : Int :=
  if modeDigit s k = 2 then (rawParam s k).toInt + s.rb.toInt else (rawParam s k).toInt

/-- Read parameter k resolves (R83). -/
abbrev paramReadable (s : State) (k : Nat) : Prop := modeDigit s k = 1 ∨ isAddr (paramAddr s k)

/-- The value of read parameter k (R83). -/
def paramValue (s : State) (k : Nat) : Word :=
  if modeDigit s k = 1 then rawParam s k else s.cell (paramAddr s k).toNat

/-- The mode digits are 0, 1 or 2 and the digits above them are 0 (spec/30_encoding.md R62). -/
abbrev digitsLegal (s : State) : Prop :=
  modeDigit s 1 ≤ 2 ∧ modeDigit s 2 ≤ 2 ∧ modeDigit s 3 ≤ 2 ∧ instrWord s / 100000 = 0

/-- A `Step` begins on an instruction word with this opcode. -/
abbrev executing (s : State) (op : Int) : Prop :=
  s.status = .running ∧ 0 ≤ s.ip.toInt ∧ 0 ≤ instrWord s ∧ instrWord s % 100 = op

/-! ### Invariant and safe runs -/

/-- The core stands at an IN that resolves: what a suspended core is re-run from (spec/42_io.md R112). -/
def atInput (s : State) : Prop :=
  ∃ p1 u2 u3, fetch s = .ok (.inp p1 u2 u3) ∧ canWrite s p1 ∧ ipRoom s 2

/-- The core stands at a HLT. -/
def atHalt (s : State) : Prop := ∃ u1 u2 u3, fetch s = .ok (.hlt u1 u2 u3)

/-- The invariant of the states a run reaches (spec/10_state.md R32), with the canonical form of the memory. -/
structure Inv (s : State) : Prop where
  /-- (i) -/
  ip_nonneg : 0 ≤ s.ip.toInt
  /-- (ii) -/
  fault_iff : s.faultKind ≠ none ↔ s.status = .faulted
  /-- (iv), said of the instruction: a suspended core stands at an IN that resolves -/
  at_input : s.status = .awaitingInput → atInput s
  /-- (v), said of the instruction -/
  at_halt : s.status = .halted → atHalt s
  /-- equal memories are equal data -/
  mem_wf : s.mem.wf

/-- The states reachable from a `Reset` by host commands (R32). -/
inductive Reachable : State → Prop where
  | reset (program : List Word) : program.length ≤ Config.maxImageLength → Reachable (State.load program)
  | command (fuel : Nat) (c : Command) (s t : State) (r : Reply) :
      Reachable s → hostCommand fuel c s = .next (t, r) → Reachable t

/-- A run of the machine is safe when no state in it is Faulted and the model never stops. -/
def safeRun : Nat → State → Prop
  | 0, s => s.status ≠ .faulted
  | n + 1, s => s.status ≠ .faulted ∧ ∃ t, step s = .next t ∧ safeRun n t

end Sys2Proof.Machine
end

