-- ==== Sys2Proof/Certificates/Slice0/Obligations.lean ====
section
/-! DEFINITION. The statements for the provers. Each docstring names the rule of spec/ it formalises, or the sections it
rests on. A statement about what a `Step` does reads the instruction off memory in the spec's own decimal digits
(`executing`, `modeDigit`, `paramValue` in Safety.lean); a statement about a meaning speaks of `exec`. -/

open Sys2Proof Sys2Proof.Machine

/-! ### Reset and the invariant -/

/-- R31: every component after `Reset(program)`, from any status other than Running. An image longer than the address
space is never given to a core (93_implementation_defined.md P5; DEDUCED, log entry 12). -/
def Obligations.ResetGivesResetState : Prop :=
  ∀ (fuel : Nat) (program : List Word) (s : State), s.status ≠ .running →
    program.length ≤ Config.maxImageLength →
    ∃ t, hostCommand fuel (.reset program) s = .next (t, .done) ∧
      t.ip = 0 ∧ t.rb = 0 ∧ t.inQ = [] ∧ t.outQ = [] ∧ t.status = .ready ∧ t.faultKind = none ∧
      (∀ k, ∀ h : k < program.length, t.cell k = program[k]) ∧
      ∀ k, program.length ≤ k → t.cell k = 0

/-- 70_reset_and_hazards.md R201, its sentence on the empty image. That the model's reset state is the reset of the
empty image is the model's choice (DESIGN CHOICE, log entry 6). -/
def Obligations.EmptyImageFaultsAtZero : Prop :=
  State.reset = State.load [] ∧ State.reset.status = .ready ∧
    resume 1 State.reset = some (raise .unknownOpcode State.reset)

/-- The invariant holds right after `Reset` of any image that fits, and in the model's reset state. -/
def Obligations.InvariantHoldsAfterReset : Prop :=
  Inv State.reset ∧
    ∀ program : List Word, program.length ≤ Config.maxImageLength → Inv (State.load program)

/-- Every step, from every state that meets the invariant, keeps it: `ip` is not negative, `fault_kind` is set exactly
in Faulted, a suspended core stands at an IN that resolves, a halted one at a HLT, memory is canonical. -/
def Obligations.StepKeepsInvariant : Prop :=
  ∀ s t : State, Inv s → step s = .next t → Inv t

/-- Every host command keeps the invariant and ends with the core not Running. -/
def Obligations.HostCommandKeepsInvariant : Prop :=
  ∀ (fuel : Nat) (c : Command) (s t : State) (r : Reply), Inv s →
    hostCommand fuel c s = .next (t, r) → Inv t ∧ t.status ≠ .running

/-- R32, which the spec marks as derived, over every state reachable from a `Reset` by host commands, in the rule's
own words on the opcode at `ip`; of (iv) the part that is a property of one state. -/
def Obligations.ReachableStatesAreConsistent : Prop :=
  ∀ s : State, Reachable s →
    0 ≤ s.ip.toInt ∧ (s.faultKind ≠ none ↔ s.status = .faulted) ∧ s.status ≠ .running ∧
      (s.status = .awaitingInput → instrWord s % 100 = 3) ∧
      (s.status = .halted → instrWord s % 100 = 99)

/-! ### Fetch, decode, encode -/

/-- A step runs the instruction the cells at `ip` decode to, and raises the fault they raise. -/
def Obligations.StepRunsDecodedInstruction : Prop :=
  ∀ s : State, s.status = .running → 0 ≤ s.ip.toInt →
    (∀ i rest, decode (cellsFrom s s.ip.toInt.toNat) = .ok (i, rest) → step s = exec i s) ∧
      ∀ k, decode (cellsFrom s s.ip.toInt.toNat) = .error k → step s = .next (raise k s)

/-- A well-formed instruction whose cells stand at `ip` is the one the step runs, wherever `ip` points and whatever
follows. -/
def Obligations.EncodedInstructionIsRun : Prop :=
  ∀ (s : State) (i : Instr), s.status = .running → 0 ≤ s.ip.toInt → i.wf = true →
    ipRoom s (i.len - 1) →
    (∀ k, k < i.len → (encode i)[k]? = some (s.cell (s.ip.toInt.toNat + k))) →
    step s = exec i s

/-- What the host's placing of an instruction means: the next step runs the instruction the decoder reads from that
number (DESIGN CHOICE, log entry 13), from any state whose next four cells exist. -/
def Obligations.PlacedInstructionIsRun : Prop :=
  ∀ (s : State) (nbits w : Nat) (i : Instr), 0 ≤ s.ip.toInt → ipRoom s 3 → s.mem.wf →
    decodeTableWord nbits w = some i →
    step (s.withFetchWord nbits w) = exec i (s.withFetchWord nbits w)

/-- In every status but Running the core does nothing until the host commands it. That a model step then answers the
same state is the model's choice (DEDUCED, log entry 5). -/
def Obligations.StepIsIdleUnlessRunning : Prop :=
  ∀ s : State, s.status ≠ .running → step s = .next s

/-- Decoding an encoded well-formed instruction gives it back, every digit and every raw parameter, and leaves the cells
after it. -/
def Obligations.DecodeOfEncode : Prop :=
  ∀ (i : Instr) (rest : List Word), i.wf = true → decode (encode i ++ rest) = .ok (i, rest)

/-- Whatever the decoder accepts is well-formed and is the encoding of what it answers: each word has one meaning. -/
def Obligations.EncodeOfDecode : Prop :=
  ∀ (cells rest : List Word) (i : Instr), decode cells = .ok (i, rest) →
    i.wf = true ∧ encode i ++ rest = cells

/-- R76, which the spec marks as derived: the instruction word of an opcode and three mode digits, and back. -/
def Obligations.InstructionWordRoundTrip : Prop :=
  (∀ h : Header, decodeWord (encodeWord h) = .ok h) ∧
    ∀ (w : Word) (h : Header), decodeWord w = .ok h →
      w.toInt = h.op.number + 100 * h.m1.digit + 1000 * h.m2.digit + 10000 * h.m3.digit

/-- R62: `Decode`, test by test in the rule's order. -/
def Obligations.DecodeTestsInOrder : Prop :=
  ∀ w : Word,
    let known : Prop := w.toInt % 100 ∈ [1, 2, 3, 4, 5, 6, 7, 8, 9, 99]
    let badDigit : Prop :=
      2 < w.toInt / 100 % 10 ∨ 2 < w.toInt / 1000 % 10 ∨ 2 < w.toInt / 10000 % 10
    (w.toInt < 0 → decodeWord w = .error .unknownOpcode) ∧
      (0 ≤ w.toInt → ¬ known → decodeWord w = .error .unknownOpcode) ∧
      (0 ≤ w.toInt → known → badDigit → decodeWord w = .error .invalidMode) ∧
      (0 ≤ w.toInt → known → ¬ badDigit → w.toInt / 100000 ≠ 0 → decodeWord w = .error .invalidMode) ∧
      (0 ≤ w.toInt → known → ¬ badDigit → w.toInt / 100000 = 0 →
        ∃ h, decodeWord w = .ok h ∧ h.op.number = w.toInt % 100 ∧ h.m1.digit = w.toInt / 100 % 10 ∧
          h.m2.digit = w.toInt / 1000 % 10 ∧ h.m3.digit = w.toInt / 10000 % 10)

/-- R67: an immediate write parameter is an InvalidMode, whatever parameter cells follow (even none); any other header
passes. -/
def Obligations.ImmediateWriteIsInvalid : Prop :=
  ∀ h : Header,
    let bad : Prop := (h.op ∈ [.add, .mul, .lt, .eq] ∧ h.m3 = .immediate) ∨ (h.op = .inp ∧ h.m1 = .immediate)
    (bad → checkWriteMode h = .error .invalidMode ∧
      ∀ (w : Word) (cells : List Word), decodeWord w = .ok h → decode (w :: cells) = .error .invalidMode) ∧
      (¬ bad → checkWriteMode h = .ok h)

/-- R74: the rule's table of worked decodings. The ten words that raise a fault are followed by three cells, so that
only the word can be at fault. -/
def Obligations.WorkedDecodings : Prop :=
  ((decode [1002, 4, 3, 4] = .ok (.mul ⟨.position, 4⟩ ⟨.immediate, 3⟩ ⟨.position, 4⟩, []) ∧
    decode [1, 4, 3, 4] = .ok (.add ⟨.position, 4⟩ ⟨.position, 3⟩ ⟨.position, 4⟩, []) ∧
    decode [99] = .ok (.hlt .position .position .position, []) ∧
    decode [204, 5] = .ok (.out ⟨.relative, 5⟩ .position .position, []) ∧
    decode [109, 5] = .ok (.arb ⟨.immediate, 5⟩ .position .position, []) ∧
    decode [1105, 5, 6] = .ok (.jt ⟨.immediate, 5⟩ ⟨.immediate, 6⟩ .position, []) ∧
    decode [21107, 5, 6, 7] = .ok (.lt ⟨.immediate, 5⟩ ⟨.immediate, 6⟩ ⟨.relative, 7⟩, []) ∧
    decode [203, 5] = .ok (.inp ⟨.relative, 5⟩ .position .position, []) ∧
    decode [1104, 5] = .ok (.out ⟨.immediate, 5⟩ .immediate .position, [])) ∧
   (decode [0, 1, 1, 1] = .error .unknownOpcode ∧
    decode [33, 1, 1, 1] = .error .unknownOpcode ∧
    decode [-1, 1, 1, 1] = .error .unknownOpcode ∧
    decode [398, 1, 1, 1] = .error .unknownOpcode ∧
    decode [301, 1, 1, 1] = .error .invalidMode ∧
    decode [90004, 1, 1, 1] = .error .invalidMode ∧
    decode [100001, 1, 1, 1] = .error .invalidMode ∧
    decode [10001, 1, 1, 1] = .error .invalidMode ∧
    decode [103, 1, 1, 1] = .error .invalidMode ∧
    decode [9223372036854775807, 1, 1, 1] = .error .invalidMode))

/-- R71, which the spec marks as derived: 225 legal instruction words, the largest 22299: every other Word fails
`Decode` or `CheckWriteMode`. -/
def Obligations.LegalWordsAreFew : Prop :=
  ∃ legal : List Word, legal.Nodup ∧ legal.length = 225 ∧ 22299 ∈ legal ∧
    (∀ w, w ∈ legal ↔ ∃ h, decodeWord w = .ok h ∧ checkWriteMode h = .ok h) ∧
    ∀ w ∈ legal, 0 ≤ w.toInt ∧ w.toInt ≤ 22299

/-! ### Memory -/

/-- The list of cells behaves as the total function of R30 and R41: after any writes to an empty memory, a cell reads as
the last value written to it, and 0 if none was; and writes to addresses keep the canonical form. -/
def Obligations.MemoryIsTotalFunction : Prop :=
  ∀ writes : List (Nat × Word), (∀ p ∈ writes, isAddr (p.1 : Int)) →
    let m := writes.foldl (fun m p => Memory.write m p.1 p.2) []
    let g := writes.foldl (fun (g : Nat → Word) p b => if b = p.1 then p.2 else g b) (fun _ => 0)
    Memory.wf m ∧ ∀ a, Memory.read m a = g a

/-- R42, R43, R44: the two primitives. Their memory is in canonical form, as every reachable one is. -/
def Obligations.MemoryPrimitiveLaws : Prop :=
  ∀ (m : Memory) (z : Int) (v : Word), m.wf →
    (z < 0 → memRead m z = .error .negativeAddress ∧ memWrite m z v = .error .negativeAddress) ∧
      (isAddr z → ∃ m', memWrite m z v = .ok m' ∧ m'.wf ∧ memRead m' z = .ok v ∧
        ∀ y, y ≠ z → memRead m' y = memRead m y) ∧
      (isAddr z → (∀ c ∈ m, c.1 ≠ z.toNat) → memRead m z = .ok 0)

/-- Equal contents are equal data: a cell written with 0 cannot be told from one never written (R30). -/
def Obligations.CanonicalMemoriesAreEqual : Prop :=
  ∀ m n : Memory, m.wf → n.wf → (∀ a, m.read a = n.read a) → m = n

/-! ### Operands and arithmetic -/

/-- R83: `ReadOperand`, mode by mode. -/
def Obligations.ReadOperandByMode : Prop :=
  ∀ (s : State) (p : Word),
    readOperand s ⟨.immediate, p⟩ = .ok p ∧
      (isAddr p.toInt → readOperand s ⟨.position, p⟩ = .ok (s.cell p.toInt.toNat)) ∧
      (¬ isAddr p.toInt → readOperand s ⟨.position, p⟩ = .error .negativeAddress) ∧
      (isAddr (p.toInt + s.rb.toInt) →
        readOperand s ⟨.relative, p⟩ = .ok (s.cell (p.toInt + s.rb.toInt).toNat)) ∧
      (¬ isAddr (p.toInt + s.rb.toInt) → readOperand s ⟨.relative, p⟩ = .error .negativeAddress)

/-- `WriteAddr` (R84), position and relative mode; the cell at the address is not read, so the answer is the same in any
memory. The first clause, an immediate parameter, is a call no run makes, since R67 rejects it earlier: its InvalidMode is
the model's choice (DEDUCED, log entry 7). -/
def Obligations.WriteAddrByMode : Prop :=
  ∀ (s : State) (p : Word) (m : Memory),
    writeAddr s ⟨.immediate, p⟩ = .error .invalidMode ∧
      (isAddr p.toInt → writeAddr s ⟨.position, p⟩ = .ok p.toInt.toNat) ∧
      (¬ isAddr p.toInt → writeAddr s ⟨.position, p⟩ = .error .negativeAddress) ∧
      (isAddr (p.toInt + s.rb.toInt) → writeAddr s ⟨.relative, p⟩ = .ok (p.toInt + s.rb.toInt).toNat) ∧
      (¬ isAddr (p.toInt + s.rb.toInt) → writeAddr s ⟨.relative, p⟩ = .error .negativeAddress) ∧
      ∀ q, writeAddr (s.setMem m) q = writeAddr s q

/-- R7: `wrap_W(z)` is the unique Word congruent to z modulo 2^W, given by the rule's formula. -/
def Obligations.WrapIsTheCongruentWord : Prop :=
  (∀ z : Int, (wrapW z).toInt = (z + 2 ^ 63) % 2 ^ 64 - 2 ^ 63) ∧
    (∀ (z : Int) (v : Word), (v.toInt - z) % 2 ^ 64 = 0 ↔ v = wrapW z) ∧
    ∀ v : Word, wrapW v.toInt = v

/-- R86: the sum, and by how much it differs from the exact one when that is no Word; with the rule's corner values. -/
def Obligations.AdditionWraps : Prop :=
  (∀ a b : Word,
    (Config.wordMin ≤ a.toInt + b.toInt → a.toInt + b.toInt ≤ Config.wordMax →
      (aluAdd a b).toInt = a.toInt + b.toInt) ∧
    (Config.wordMax < a.toInt + b.toInt → (aluAdd a b).toInt = a.toInt + b.toInt - 2 ^ 64) ∧
    (a.toInt + b.toInt < Config.wordMin → (aluAdd a b).toInt = a.toInt + b.toInt + 2 ^ 64) ∧
    aluAdd a b = wrapW (a.toInt + b.toInt)) ∧
  (∀ a : Word, aluAdd a 0 = a ∧ aluAdd a (-a) = 0) ∧
  aluAdd (wrapW Config.wordMax) 1 = wrapW Config.wordMin ∧
  aluAdd (wrapW Config.wordMin) (-1) = wrapW Config.wordMax ∧
  aluAdd (wrapW Config.wordMin) (wrapW Config.wordMin) = 0 ∧
  aluAdd (wrapW Config.wordMax) (wrapW Config.wordMax) = -2

/-- R87: the low W bits of the exact signed product, with the rule's corner values. -/
def Obligations.MultiplicationKeepsLowBits : Prop :=
  (∀ a b : Word, aluMul a b = wrapW (a.toInt * b.toInt) ∧ aluMul a b = a * b) ∧
  (∀ a : Word, aluMul a 0 = 0 ∧ aluMul a 1 = a ∧
    (a.toInt ≠ Config.wordMin → (aluMul a (-1)).toInt = -a.toInt)) ∧
  aluMul (wrapW Config.wordMin) (-1) = wrapW Config.wordMin ∧
  aluMul (-3) 5 = -15 ∧ aluMul (-3) (-5) = 15 ∧
  aluMul 34915192 34915192 = 1219070632396864 ∧
  aluMul 4294967296 4294967296 = 0 ∧
  aluMul 3037000500 3037000500 = wrapW (-9223372036709301616) ∧
  aluMul (wrapW Config.wordMax) (wrapW Config.wordMax) = 1 ∧
  aluMul (wrapW Config.wordMin) (wrapW Config.wordMin) = 0 ∧
  aluMul (wrapW Config.wordMax) 2 = -2

/-- R88: the signed order, exact at every pair of Words, answering 1 or 0. -/
def Obligations.LessThanIsSigned : Prop :=
  (∀ a b : Word, (a.toInt < b.toInt → aluLt a b = 1) ∧ (¬ a.toInt < b.toInt → aluLt a b = 0)) ∧
  aluLt (-1) 0 = 1 ∧ aluLt (wrapW Config.wordMin) (wrapW Config.wordMax) = 1 ∧
  aluLt (wrapW Config.wordMax) (wrapW Config.wordMin) = 0 ∧ ∀ a : Word, aluLt a a = 0

/-- R89: equality answers 1 or 0, and the jumps' test is the same equality with 0. -/
def Obligations.EqualityAndZeroTest : Prop :=
  (∀ a b : Word, (a = b → aluEq a b = 1) ∧ (a ≠ b → aluEq a b = 0)) ∧
  ∀ a : Word, (condTrue a = true ↔ a ≠ 0) ∧ (condFalse a = true ↔ a = 0)

/-! ### What each instruction does: its meaning -/

/-- ADD, MUL, LT, EQ complete when their parameters resolve and the successor exists, with the result their rules give
written to the cell parameter 3 names and nothing else but `ip` changed; otherwise they raise. The last clause is about
terms no word decodes to (DEDUCED, log entry 7). -/
def Obligations.StoringInstructionsComplete : Prop :=
  ∀ (s : State) (p1 p2 p3 : Param),
    let a := valueOf s p1
    let b := valueOf s p2
    let result (v : Word) : Host.Outcome State Fault Refusal :=
      .next ((s.store (targetOf s p3) v).setIp (ipPlus s 4))
    (canRead s p1 → canRead s p2 → canWrite s p3 → ipRoom s 4 →
      exec (.add p1 p2 p3) s = result (wrapW (a.toInt + b.toInt)) ∧
      exec (.mul p1 p2 p3) s = result (wrapW (a.toInt * b.toInt)) ∧
      exec (.lt p1 p2 p3) s = result (if a.toInt < b.toInt then 1 else 0) ∧
      exec (.eq p1 p2 p3) s = result (if a.toInt = b.toInt then 1 else 0)) ∧
    (p3.mode ≠ .immediate → ¬ (canRead s p1 ∧ canRead s p2 ∧ canWrite s p3 ∧ ipRoom s 4) →
      ∀ i ∈ [Instr.add p1 p2 p3, .mul p1 p2 p3, .lt p1 p2 p3, .eq p1 p2 p3],
        exec i s = .next (raise .negativeAddress s)) ∧
    (p3.mode = .immediate →
      ∀ i ∈ [Instr.add p1 p2 p3, .mul p1 p2 p3, .lt p1 p2 p3, .eq p1 p2 p3],
        exec i s = .next (raise .invalidMode s))

/-- IN completes when its target resolves, its successor exists and an input waits; with none it suspends; otherwise it
raises, whether or not an input waits. The last clause is about terms no word decodes to (DEDUCED, log entry 7). -/
def Obligations.InCompletesOrSuspends : Prop :=
  ∀ (s : State) (p1 : Param) (u2 u3 : Mode),
    (∀ v rest, s.inQ = v :: rest → canWrite s p1 → ipRoom s 2 →
      exec (.inp p1 u2 u3) s =
        .next (((s.setInQ rest).store (targetOf s p1) v).setIp (ipPlus s 2))) ∧
    (s.inQ = [] → canWrite s p1 → ipRoom s 2 →
      exec (.inp p1 u2 u3) s = .next (s.setStatus .awaitingInput)) ∧
    (p1.mode ≠ .immediate → ¬ (canWrite s p1 ∧ ipRoom s 2) →
      exec (.inp p1 u2 u3) s = .next (raise .negativeAddress s)) ∧
    (p1.mode = .immediate → exec (.inp p1 u2 u3) s = .next (raise .invalidMode s))

/-- OUT and ARB complete when their operand resolves and the successor exists, whatever their unused mode digits;
otherwise they raise. -/
def Obligations.OutAndArbComplete : Prop :=
  ∀ (s : State) (p1 : Param) (u2 u3 : Mode),
    (canRead s p1 → ipRoom s 2 →
      exec (.out p1 u2 u3) s = .next ((s.setOutQ (s.outQ ++ [valueOf s p1])).setIp (ipPlus s 2)) ∧
      exec (.arb p1 u2 u3) s =
        .next ((s.setRb (wrapW (s.rb.toInt + (valueOf s p1).toInt))).setIp (ipPlus s 2))) ∧
    (¬ (canRead s p1 ∧ ipRoom s 2) →
      exec (.out p1 u2 u3) s = .next (raise .negativeAddress s) ∧
      exec (.arb p1 u2 u3) s = .next (raise .negativeAddress s))

/-- JT and JF complete, writing `ip` alone: to the target when taken, to `ip + 3` when not. Both operands must resolve
either way (R94); only a taken jump's target must not be negative, and only the other needs a successor. -/
def Obligations.JumpsComplete : Prop :=
  ∀ (s : State) (p1 p2 : Param) (u3 : Mode), ∀ i ∈ [Instr.jt p1 p2 u3, .jf p1 p2 u3],
    let taken : Prop := i = .jt p1 p2 u3 ∧ valueOf s p1 ≠ 0 ∨ i = .jf p1 p2 u3 ∧ valueOf s p1 = 0
    let resolved : Prop := ipRoom s 2 ∧ canRead s p1 ∧ canRead s p2
    (resolved → taken → 0 ≤ (valueOf s p2).toInt → exec i s = .next (s.setIp (valueOf s p2))) ∧
    (resolved → ¬ taken → ipRoom s 3 → exec i s = .next (s.setIp (ipPlus s 3))) ∧
    (resolved → taken → (valueOf s p2).toInt < 0 → exec i s = .next (raise .negativeAddress s)) ∧
    (resolved → ¬ taken → ¬ ipRoom s 3 → exec i s = .next (raise .negativeAddress s)) ∧
    (¬ resolved → exec i s = .next (raise .negativeAddress s))

/-- HLT completes in every state, writing the status alone. -/
def Obligations.HltCompletes : Prop :=
  ∀ (s : State) (u1 u2 u3 : Mode), exec (.hlt u1 u2 u3) s = .next (s.setStatus .halted)

/-! ### What each instruction does: the whole `Step` on its word -/

/-- What R100, R101, R130 and R131 share, for the opcode `op` and the result `f`. -/
def Sys2Proof.Machine.storeRule (op : Int) (f : Word → Word → Word) : Prop :=
  ∀ s : State, executing s op →
    let resolved : Prop := ipRoom s 4 ∧ paramReadable s 1 ∧ paramReadable s 2 ∧ isAddr (paramAddr s 3)
    (¬ digitsLegal s ∨ modeDigit s 3 = 1 → step s = .next (raise .invalidMode s)) ∧
    (digitsLegal s → modeDigit s 3 ≠ 1 →
      (resolved → step s = .next
        ((s.store (paramAddr s 3).toNat (f (paramValue s 1) (paramValue s 2))).setIp (ipPlus s 4))) ∧
      (¬ resolved → step s = .next (raise .negativeAddress s)))

/-- R100: a `Step` on a word with opcode 1. -/
def Obligations.StepOfAdd : Prop := storeRule 1 fun a b => wrapW (a.toInt + b.toInt)

/-- R101: a `Step` on a word with opcode 2. -/
def Obligations.StepOfMul : Prop := storeRule 2 fun a b => wrapW (a.toInt * b.toInt)

/-- R130: a `Step` on a word with opcode 7. -/
def Obligations.StepOfLt : Prop := storeRule 7 fun a b => if a.toInt < b.toInt then 1 else 0

/-- R131: a `Step` on a word with opcode 8. -/
def Obligations.StepOfEq : Prop := storeRule 8 fun a b => if a.toInt = b.toInt then 1 else 0

/-- R110: a `Step` on a word with opcode 3; every fault comes before the queue is examined. -/
def Obligations.StepOfIn : Prop :=
  ∀ s : State, executing s 3 →
    let resolved : Prop := ipRoom s 2 ∧ isAddr (paramAddr s 1)
    (¬ digitsLegal s ∨ modeDigit s 1 = 1 → step s = .next (raise .invalidMode s)) ∧
    (digitsLegal s → modeDigit s 1 ≠ 1 →
      (resolved → s.inQ = [] → step s = .next (s.setStatus .awaitingInput)) ∧
      (∀ v rest, resolved → s.inQ = v :: rest →
        step s = .next (((s.setInQ rest).store (paramAddr s 1).toNat v).setIp (ipPlus s 2))) ∧
      (¬ resolved → step s = .next (raise .negativeAddress s)))

/-- What R111 and R140 share, for the opcode `op` and the effect `g`. -/
def Sys2Proof.Machine.operandRule (op : Int) (g : Word → State → State) : Prop :=
  ∀ s : State, executing s op →
    let resolved : Prop := ipRoom s 2 ∧ paramReadable s 1
    (¬ digitsLegal s → step s = .next (raise .invalidMode s)) ∧
    (digitsLegal s → resolved → step s = .next ((g (paramValue s 1) s).setIp (ipPlus s 2))) ∧
    (digitsLegal s → ¬ resolved → step s = .next (raise .negativeAddress s))

/-- R111: a `Step` on a word with opcode 4. -/
def Obligations.StepOfOut : Prop := operandRule 4 fun r s => s.setOutQ (s.outQ ++ [r])

/-- R140: a `Step` on a word with opcode 9. -/
def Obligations.StepOfArb : Prop := operandRule 9 fun r s => s.setRb (wrapW (s.rb.toInt + r.toInt))

/-- What R120 and R121 share, for the opcode `op` and the condition on operand 1. -/
def Sys2Proof.Machine.jumpRule (op : Int) (cond : Word → Prop) : Prop :=
  ∀ s : State, executing s op →
    let resolved : Prop := ipRoom s 2 ∧ paramReadable s 1 ∧ paramReadable s 2
    let taken : Prop := cond (paramValue s 1)
    let target : Word := paramValue s 2
    (¬ digitsLegal s → step s = .next (raise .invalidMode s)) ∧
    (digitsLegal s → ¬ resolved → step s = .next (raise .negativeAddress s)) ∧
    (digitsLegal s → resolved → taken → 0 ≤ target.toInt → step s = .next (s.setIp target)) ∧
    (digitsLegal s → resolved → taken → target.toInt < 0 → step s = .next (raise .negativeAddress s)) ∧
    (digitsLegal s → resolved → ¬ taken → ipRoom s 3 → step s = .next (s.setIp (ipPlus s 3))) ∧
    (digitsLegal s → resolved → ¬ taken → ¬ ipRoom s 3 → step s = .next (raise .negativeAddress s))

/-- R120: a `Step` on a word with opcode 5. -/
def Obligations.StepOfJt : Prop := jumpRule 5 fun r => r ≠ 0

/-- R121: a `Step` on a word with opcode 6. -/
def Obligations.StepOfJf : Prop := jumpRule 6 fun r => r = 0

/-- R145: a `Step` on a word with opcode 99; no address can fault it. -/
def Obligations.StepOfHlt : Prop :=
  ∀ s : State, executing s 99 →
    (¬ digitsLegal s → step s = .next (raise .invalidMode s)) ∧
    (digitsLegal s → step s = .next (s.setStatus .halted))

/-! ### Frames and whole-machine rules -/

/-- The frame of the instructions that store: ADD, MUL, LT, EQ in the cell parameter 3 names, IN in the cell parameter
1 names. Registers, the output queue and every other cell stay, a fault or a suspension leaves memory alone; IN alone
takes from the input queue. -/
def Obligations.StoringInstructionsFrame : Prop :=
  ∀ (s t : State) (p1 p2 p3 : Param) (u2 u3 : Mode),
    (∀ i ∈ [Instr.add p1 p2 p3, .mul p1 p2 p3, .lt p1 p2 p3, .eq p1 p2 p3], exec i s = .next t →
      t.rb = s.rb ∧ t.inQ = s.inQ ∧ t.outQ = s.outQ ∧
      (t.status = s.status ∧ t.faultKind = s.faultKind ∨ ∃ k, t = raise k s) ∧
      (∀ a, writeAddr s p3 = .ok a → ∀ b, b ≠ a → t.cell b = s.cell b) ∧
      (∀ k, writeAddr s p3 = .error k → t.mem = s.mem)) ∧
    (exec (.inp p1 u2 u3) s = .next t →
      t.rb = s.rb ∧ t.outQ = s.outQ ∧
      (t.inQ = s.inQ ∧ t.mem = s.mem ∧ t.ip = s.ip ∨ ∃ v, s.inQ = v :: t.inQ) ∧
      (t.status = s.status ∧ t.faultKind = s.faultKind ∨ t = s.setStatus .awaitingInput ∨ ∃ k, t = raise k s) ∧
      (∀ a, writeAddr s p1 = .ok a → ∀ b, b ≠ a → t.cell b = s.cell b) ∧
      (∀ k, writeAddr s p1 = .error k → t.mem = s.mem))

/-- The frame of the instructions that store nothing: memory stays, whole; OUT alone writes the output queue, ARB
alone the relative base, HLT alone the status when there is no fault. -/
def Obligations.NonStoringInstructionsFrame : Prop :=
  ∀ (s t : State) (p1 p2 : Param) (u1 u2 u3 : Mode),
    (exec (.out p1 u2 u3) s = .next t →
      t.mem = s.mem ∧ t.rb = s.rb ∧ t.inQ = s.inQ ∧
      (t.status = s.status ∧ t.faultKind = s.faultKind ∨ ∃ k, t = raise k s)) ∧
    (exec (.arb p1 u2 u3) s = .next t →
      t.mem = s.mem ∧ t.inQ = s.inQ ∧ t.outQ = s.outQ ∧
      (t.status = s.status ∧ t.faultKind = s.faultKind ∨ ∃ k, t = raise k s)) ∧
    (∀ i ∈ [Instr.jt p1 p2 u3, .jf p1 p2 u3], exec i s = .next t →
      t.mem = s.mem ∧ t.rb = s.rb ∧ t.inQ = s.inQ ∧ t.outQ = s.outQ ∧
      (t.status = s.status ∧ t.faultKind = s.faultKind ∨ ∃ k, t = raise k s)) ∧
    (exec (.hlt u1 u2 u3) s = .next t →
      t.mem = s.mem ∧ t.ip = s.ip ∧ t.rb = s.rb ∧ t.inQ = s.inQ ∧ t.outQ = s.outQ ∧
      t.faultKind = s.faultKind)

/-- R171: a fault writes `status` and `fault_kind` and nothing else, and `ip` keeps the faulting instruction's address;
this over every step of a running core. The run loop then exits. -/
def Obligations.FaultChangesNothingElse : Prop :=
  ∀ s t : State, s.status = .running → step s = .next t → t.status = .faulted →
    (∃ k, t.faultKind = some k) ∧ t.mem = s.mem ∧ t.ip = s.ip ∧ t.rb = s.rb ∧ t.inQ = s.inQ ∧
      t.outQ = s.outQ ∧ ∀ fuel, runLoop (fuel + 1) s = some t

/-- R96, which the spec marks as derived: `Step` answers a next state from every running state, with one of four
statuses: Running when the instruction completed and was no HLT, AwaitingInput only from an IN that found the input
queue empty, Halted only from a HLT. -/
def Obligations.StepIsTotal : Prop :=
  ∀ s : State, s.status = .running →
    ∃ t, step s = .next t ∧
      ((t.status = .running ∧ ∃ i, fetch s = .ok i ∧ ∀ u1 u2 u3, i ≠ .hlt u1 u2 u3) ∨
        t.status = .faulted ∨
        (t.status = .awaitingInput ∧ s.inQ = [] ∧ ∃ p1 u2 u3, fetch s = .ok (.inp p1 u2 u3)) ∨
        (t.status = .halted ∧ ∃ u1 u2 u3, fetch s = .ok (.hlt u1 u2 u3)))

/-- R164, which the spec marks as derived: a step removes at most one input, appends at most one output, and writes at most
one cell, the one `writeAddr` gives for the write parameter of the instruction fetched; an instruction without a write
parameter and a step that fetches none leave memory alone. It does no more than one of: write memory, append output (OUT),
write `rb` (ARB). -/
def Obligations.StepWritesAtMostOnce : Prop :=
  ∀ s t : State, s.status = .running → step s = .next t →
    (t.inQ = s.inQ ∨ ∃ v, s.inQ = v :: t.inQ) ∧
    (t.mem = s.mem ∨
      ∃ i p a v, fetch s = .ok i ∧ writeParam i = some p ∧ writeAddr s p = .ok a ∧ t.mem = s.mem.write a v) ∧
    (∀ i, fetch s = .ok i → writeParam i = none → t.mem = s.mem) ∧
    (∀ k, fetch s = .error k → t.mem = s.mem) ∧
    ((t.outQ = s.outQ ∧ t.rb = s.rb) ∨
      (t.mem = s.mem ∧ t.rb = s.rb ∧
        ∃ v p1 u2 u3, t.outQ = s.outQ ++ [v] ∧ fetch s = .ok (.out p1 u2 u3)) ∨
      (t.mem = s.mem ∧ t.outQ = s.outQ ∧ ∃ p1 u2 u3, fetch s = .ok (.arb p1 u2 u3)))

/-- R124: every instruction but a taken jump, a HLT, a suspending IN and a faulting one moves `ip` by its length, and
the run loop goes on with the instruction there. -/
def Obligations.OnlyJumpsLeaveTheSequence : Prop :=
  (∀ (s t : State) (i : Instr), 0 ≤ s.ip.toInt → exec i s = .next t →
    (t.status = s.status ∧ t.faultKind = s.faultKind ∧ t.ip.toInt = s.ip.toInt + i.len) ∨
      (∃ p1 p2 u3, (i = .jt p1 p2 u3 ∧ valueOf s p1 ≠ 0 ∨ i = .jf p1 p2 u3 ∧ valueOf s p1 = 0) ∧
        t = s.setIp (valueOf s p2)) ∨
      (∃ u1 u2 u3, i = .hlt u1 u2 u3 ∧ t = s.setStatus .halted) ∨
      (∃ p1 u2 u3, i = .inp p1 u2 u3 ∧ s.inQ = [] ∧ t = s.setStatus .awaitingInput) ∨
      ∃ k, t = raise k s) ∧
  ∀ (s t : State) (fuel : Nat), s.status = .running → step s = .next t →
    runLoop (fuel + 1) s = runLoop fuel t

/-- R141: `rb` affects nothing but relative-mode parameters. The fetch, and an instruction with none of them, ARB
apart, do the same whatever `rb` holds, and leave it. It is 0 after `Reset` and only ARB writes it, and while it is 0
a relative-mode parameter behaves like a position-mode one. -/
def Obligations.RelativeBaseReachesOnlyRelativeParameters : Prop :=
  (∀ (s : State) (b : Word), fetch (s.setRb b) = fetch s) ∧
  (∀ (s t : State) (i : Instr) (b : Word), (∀ p ∈ i.params, p.mode ≠ .relative) →
    (¬ ∃ p1 u2 u3, i = .arb p1 u2 u3) → exec i s = .next t → exec i (s.setRb b) = .next (t.setRb b)) ∧
  (∀ program, (State.load program).rb = 0) ∧
  (∀ s t : State, s.status = .running → step s = .next t →
    t.rb = s.rb ∨ ∃ p1 u2 u3, fetch s = .ok (.arb p1 u2 u3)) ∧
  ∀ (s : State) (r : Word), s.rb = 0 →
    readOperand s ⟨.relative, r⟩ = readOperand s ⟨.position, r⟩ ∧
      writeAddr s ⟨.relative, r⟩ = writeAddr s ⟨.position, r⟩

/-- R142, which the spec marks as derived: a sequence of ARBs with operand values d1, d2, ..., dj, in any modes, ends
with `rb` at the first `rb` plus their sum, wrapped once, whatever the intermediate values. -/
def Obligations.ArbDeltasAddUp : Prop :=
  ∀ (n : Nat) (run : Nat → State) (p : Nat → Param) (u2 u3 : Nat → Mode),
    (∀ k, k < n → canRead (run k) (p k) ∧ ipRoom (run k) 2 ∧
      exec (.arb (p k) (u2 k) (u3 k)) (run k) = .next (run (k + 1))) →
    (run n).rb = wrapW ((run 0).rb.toInt + ∑ k ∈ Finset.range n, (valueOf (run k) (p k)).toInt)

/-! ### The controller -/

/-- R176 for a Faulted core and R152 for a Halted one: nothing but `Reset` changes `status` or `fault_kind`, and `Resume`
has no effect, while `PushInput`, `DrainOutput` and `Peek` still work. That a model step answers the same state is the
model's choice (DEDUCED, log entry 5). -/
def Obligations.TerminalStatusesLast : Prop :=
  ∀ (fuel : Nat) (s : State), s.status = .faulted ∨ s.status = .halted →
    step s = .next s ∧ hostCommand fuel .resume s = .next (s, .status s.status) ∧
    (∀ (c : Command) (t : State) (r : Reply), (∀ program, c ≠ .reset program) →
      hostCommand fuel c s = .next (t, r) → t.status = s.status ∧ t.faultKind = s.faultKind) ∧
    (∀ v, hostCommand fuel (.pushInput v) s = .next (s.setInQ (s.inQ ++ [v]), .done)) ∧
    hostCommand fuel .drainOutput s = .next (s.setOutQ [], .words s.outQ) ∧
    ∀ what, (∀ a, what = .mem a → isAddr a) → ∃ r, hostCommand fuel (.peek what) s = .next (s, r)

/-- R153, R154 and R157 for a core that is not Running: what `PushInput`, `DrainOutput` and `Peek` change and return. A
`Peek` above WORD_MAX is refused like one below 0 (DEDUCED, log entry 11). -/
def Obligations.QueueCommandsAndPeek : Prop :=
  ∀ (fuel : Nat) (s : State) (v : Word), s.status ≠ .running →
    hostCommand fuel (.pushInput v) s = .next (s.setInQ (s.inQ ++ [v]), .done) ∧
    hostCommand fuel .drainOutput s = .next (s.setOutQ [], .words s.outQ) ∧
    hostCommand fuel (.peek .status) s = .next (s, .status s.status) ∧
    hostCommand fuel (.peek .faultKind) s = .next (s, .faultKind s.faultKind) ∧
    hostCommand fuel (.peek .ip) s = .next (s, .word s.ip) ∧
    hostCommand fuel (.peek .rb) s = .next (s, .word s.rb) ∧
    hostCommand fuel (.peek .inQ) s = .next (s, .words s.inQ) ∧
    hostCommand fuel (.peek .outQ) s = .next (s, .words s.outQ) ∧
    (∀ a, isAddr a → hostCommand fuel (.peek (.mem a)) s = .next (s, .word (s.cell a.toNat))) ∧
    ∀ a, ¬ isAddr a → hostCommand fuel (.peek (.mem a)) s = .refused .peekOutsideMemory

/-- R162: what a `Resume` that ends returns is the status it leaves, which is AwaitingInput, Halted or Faulted. From Ready
or AwaitingInput it is there after finitely many steps from the core set Running (R155). The fuel is the model's own (DESIGN
CHOICE, log entry 10), and more of it does not change the answer. -/
def Obligations.ResumeReturnsOutsideRunning : Prop :=
  ∀ (fuel : Nat) (s t : State) (r : Reply), hostCommand fuel .resume s = .next (t, r) →
    r = .status t.status ∧ (t.status = .awaitingInput ∨ t.status = .halted ∨ t.status = .faulted) ∧
    (∀ more, hostCommand (fuel + more) .resume s = .next (t, r)) ∧
    (s.status = .ready ∨ s.status = .awaitingInput →
      ∃ n, Host.Core.run ⟨State, Fault, Refusal, step, State.reset⟩ n (s.setStatus .running) = .next t)

/-- R159, which the spec marks as derived: a `Resume` of a suspended core whose input queue is still empty changes
nothing and returns AwaitingInput. The core meets the invariant, as every reachable one does. -/
def Obligations.ResumeWithoutInputChangesNothing : Prop :=
  ∀ (fuel : Nat) (s : State), Inv s → s.status = .awaitingInput → s.inQ = [] → 0 < fuel →
    hostCommand fuel .resume s = .next (s, .status .awaitingInput)

/-- R161, which the spec marks as derived: splitting a run does not change it. Where a `Resume` suspends, its outputs
are drained, further inputs pushed and the core resumed, one `Resume` with all the inputs pushed before it ends in the
same state, with the outputs of both. -/
def Obligations.SplittingARunChangesNothing : Prop :=
  ∀ (fuel fuel' : Nat) (s t u : State) (inputs : List Word),
    s.status = .ready ∨ s.status = .awaitingInput →
    resume fuel s = some t → t.status = .awaitingInput →
    resume fuel' (t.drained.setInQ (t.inQ ++ inputs)) = some u →
    ∃ fuel'', resume fuel'' (s.setInQ (s.inQ ++ inputs)) = some (u.setOutQ (t.outQ ++ u.outQ))

/-- R151: a host command on a Running core has no move, and when one ends the core is not Running. That the model then
answers a fault of its own is the model's choice (DEDUCED, log entry 9). -/
def Obligations.NoCommandWhileRunning : Prop :=
  ∀ (fuel : Nat) (c : Command) (s : State),
    (s.status = .running → hostCommand fuel c s = .fault .commandWhileRunning) ∧
    ∀ t r, hostCommand fuel c s = .next (t, r) → s.status ≠ .running ∧ t.status ≠ .running

/-! ### The pipeline driver -/

/-- R185: every core reset from the one image with its phase first in its queue, `s0` behind the phase of core 0. -/
def Obligations.PipelineSetUpQueues : Prop :=
  ∀ (program phases : List Word) (s0 : Word),
    (pipelineSetUp program phases s0).cores.length = phases.length ∧
    ∀ j, ∀ h : j < phases.length, ∃ c, (pipelineSetUp program phases s0).cores[j]? = some c ∧
      c.inQ = (if j = 0 then [phases[j], s0] else [phases[j]]) ∧ c.status = .ready ∧
      c = (State.load program).setInQ c.inQ

/-- R187 with the loop of R186: an iteration resumes the core whose turn it is, leaves its output queue empty, appends its
outputs in order to the next core's input queue, and touches no other core. With one core the next core is itself. The
last core's last output becomes the final value. When the loop goes on, the turn passes to the next core (R188), and the
idle count grows by one after an iteration that left the status and the outputs as they were, else it starts again from 0
(R190). -/
def Obligations.PipelineMovesOutputsInOrder : Prop :=
  ∀ (fuel : Nat) (p : Pipeline) (before after : State),
    p.cores[p.turn]? = some before → resume fuel before = some after →
    ∃ q, (pipelineIterate fuel p = some (.continued q) ∨ ∃ e, pipelineIterate fuel p = some (.ended q e)) ∧
      q.cores.length = p.cores.length ∧
      (p.cores.length = 1 → q.cores = [after.drained.setInQ (after.inQ ++ after.outQ)]) ∧
      (1 < p.cores.length → q.cores[p.turn]? = some after.drained ∧
        ∃ next, p.cores[(p.turn + 1) % p.cores.length]? = some next ∧
          q.cores[(p.turn + 1) % p.cores.length]? = some (next.setInQ (next.inQ ++ after.outQ))) ∧
      (∀ j, j ≠ p.turn → j ≠ (p.turn + 1) % p.cores.length → q.cores[j]? = p.cores[j]?) ∧
      (p.turn + 1 = p.cores.length → q.final = after.outQ.getLast?.or p.final) ∧
      (p.turn + 1 ≠ p.cores.length → q.final = p.final) ∧
      (pipelineIterate fuel p = some (.continued q) →
        q.turn = (p.turn + 1) % p.cores.length ∧
        (after.status = before.status → after.outQ = [] → q.idle = p.idle + 1) ∧
        (¬ (after.status = before.status ∧ after.outQ = []) → q.idle = 0))

/-- R189, R190, R191: how a run of the pipeline ends. A signal only when every core is Halted, a core's fault only with
that core Faulted and its kind reported. A deadlock only after idle iterations in a row: the run is `m + 1` iterations from
`p`, of which the last N, or all where there are fewer, each left their core's status as it was and no output; with those
counted in `p.idle` (0 at the set-up) they are at least N. -/
def Obligations.PipelineEndsForItsReasons : Prop :=
  ∀ (fuel rounds : Nat) (p q : Pipeline) (e : PipelineEnd), pipelineLoop fuel rounds p = some (q, e) →
    (∀ final, e = .signal final → final = q.final ∧ ∀ c ∈ q.cores, c.status = .halted) ∧
    (∀ core kind, e = .coreFault core kind →
      core = q.turn ∧ ∃ c, q.cores[core]? = some c ∧ c.status = .faulted ∧ c.faultKind = kind) ∧
    (e = .deadlock → q.idle = q.cores.length ∧
      ∃ (m : Nat) (run : Nat → Pipeline), run 0 = p ∧
        (∀ k, k < m → pipelineIterate fuel (run k) = some (.continued (run (k + 1)))) ∧
        pipelineIterate fuel (run m) = some (.ended q .deadlock) ∧
        q.cores.length ≤ m + 1 + p.idle ∧
        ∀ k, k ≤ m → m + 1 ≤ k + q.cores.length →
          ∃ before after, (run k).cores[(run k).turn]? = some before ∧ resume fuel before = some after ∧
            after.status = before.status ∧ after.outQ = [])

/-- R186, the exits of the loop in their order, each exactly when its condition holds: a fault of the core resumed (R191),
all cores Halted after the transfer (R189), N idle iterations in a row (R190), else the loop goes on. -/
def Obligations.PipelineIterationExits : Prop :=
  ∀ (fuel : Nat) (p : Pipeline) (before after : State),
    p.cores[p.turn]? = some before → resume fuel before = some after →
    ∃ q, let idle := if after.status = before.status ∧ after.outQ = [] then p.idle + 1 else 0
      q.cores = (p.cores.set p.turn after.drained).modify ((p.turn + 1) % p.cores.length)
        (State.pushAll after.outQ) ∧
      (after.status = .faulted →
        pipelineIterate fuel p = some (.ended q (.coreFault p.turn after.faultKind))) ∧
      (after.status ≠ .faulted → (∀ c ∈ q.cores, c.status = .halted) →
        pipelineIterate fuel p = some (.ended q (.signal q.final))) ∧
      (after.status ≠ .faulted → (∃ c ∈ q.cores, c.status ≠ .halted) → idle = p.cores.length →
        pipelineIterate fuel p = some (.ended q .deadlock) ∧ q.idle = idle) ∧
      (after.status ≠ .faulted → (∃ c ∈ q.cores, c.status ≠ .halted) → idle ≠ p.cores.length →
        pipelineIterate fuel p = some (.continued q) ∧ q.idle = idle)
end

