-- ==== Sys2Proof/Laws/Memory.lean ====
section
/-! SUPPORT. What the memory operations do: reading after writing, and that every operation keeps the canonical form. -/

namespace Sys2Proof.Machine

theorem Memory.wf_nil : Memory.wf [] := by
  simp [Memory.wf]

theorem Memory.wf_tail {c : Nat × Word} {m : Memory} (h : Memory.wf (c :: m)) : Memory.wf m :=
  ⟨(List.pairwise_cons.1 h.1).2, fun d hd => h.2 d (List.mem_cons_of_mem _ hd)⟩

/-- Below its first listed address a memory reads as unlisted. -/
theorem Memory.read_below {m : Memory} {a : Nat} (h : ∀ c ∈ m, a < c.1) :
    m.read a = Memory.unlisted := by
  induction m with
  | nil => rfl
  | cons c m ih =>
    have hc : a < c.1 := h c (by simp)
    have ht : ∀ d ∈ m, a < d.1 := fun d hd => h d (List.mem_cons_of_mem _ hd)
    simp [Memory.read, Nat.ne_of_lt hc, ih ht]

theorem Memory.read_push_same {m : Memory} {a : Nat} (v : Word) (h : ∀ c ∈ m, a < c.1) :
    (Memory.push a v m).read a = v := by
  unfold Memory.push
  split
  · next hv => rw [Memory.read_below h, hv]
  · simp [Memory.read]

theorem Memory.read_push_other {a b : Nat} (v : Word) (m : Memory) (h : b ≠ a) :
    (Memory.push a v m).read b = m.read b := by
  unfold Memory.push
  split
  · rfl
  · simp [Memory.read, h]

/-- A write leaves every other cell alone. -/
theorem Memory.read_write_other {a b : Nat} (v : Word) (m : Memory) (h : b ≠ a) :
    (m.write a v).read b = m.read b := by
  induction m with
  | nil => exact Memory.read_push_other v [] h
  | cons c m ih =>
    simp only [Memory.write]
    split
    · exact Memory.read_push_other v _ h
    · split
      · next hac => rw [Memory.read_push_other v m h]; simp [Memory.read, ← hac, h]
      · simp [Memory.read, ih]

/-- A read after a write to the same cell gives the value written. -/
theorem Memory.read_write_same {m : Memory} (hm : m.wf) (a : Nat) (v : Word) :
    (m.write a v).read a = v := by
  induction m with
  | nil => exact Memory.read_push_same v (by simp)
  | cons c m ih =>
    have hlt : ∀ d ∈ m, c.1 < d.1 := (List.pairwise_cons.1 hm.1).1
    simp only [Memory.write]
    split
    · next hac =>
      refine Memory.read_push_same v ?_
      intro d hd
      rcases List.mem_cons.1 hd with rfl | hd
      · exact hac
      · exact Nat.lt_trans hac (hlt d hd)
    · split
      · next hac => exact Memory.read_push_same v (by simpa [hac] using hlt)
      · next hac => simp [Memory.read, hac, ih (Memory.wf_tail hm)]

/-- The addresses a write can list: the old ones and the one written. -/
theorem Memory.mem_write {m : Memory} {a : Nat} {v : Word} {d : Nat × Word} (h : d ∈ m.write a v) :
    d ∈ m ∨ (d = (a, v) ∧ v ≠ Memory.unlisted) := by
  induction m with
  | nil =>
    simp only [Memory.write, Memory.push] at h
    split at h
    · exact .inl h
    · next hv => exact .inr ⟨by simpa using h, hv⟩
  | cons c m ih =>
    simp only [Memory.write, Memory.push] at h
    split at h
    · split at h
      · exact .inl h
      · next hv =>
        rcases List.mem_cons.1 h with h | h
        · exact .inr ⟨h, hv⟩
        · exact .inl h
    · split at h
      · split at h
        · exact .inl (List.mem_cons_of_mem _ h)
        · next hv =>
          rcases List.mem_cons.1 h with h | h
          · exact .inr ⟨h, hv⟩
          · exact .inl (List.mem_cons_of_mem _ h)
      · rcases List.mem_cons.1 h with h | h
        · exact .inl (by simp [h])
        · rcases ih h with h | h
          · exact .inl (List.mem_cons_of_mem _ h)
          · exact .inr h

theorem Memory.wf_push {m : Memory} {a : Nat} {v : Word} (hm : m.wf) (ha : (a : Int) ≤ Config.wordMax)
    (h : ∀ c ∈ m, a < c.1) : (Memory.push a v m).wf := by
  unfold Memory.push
  split
  · exact hm
  · next hv =>
    refine ⟨List.pairwise_cons.2 ⟨h, hm.1⟩, ?_⟩
    intro d hd
    rcases List.mem_cons.1 hd with rfl | hd
    · exact ⟨hv, ha⟩
    · exact hm.2 d hd

/-- A write at an address keeps the canonical form. -/
theorem Memory.wf_write {m : Memory} (hm : m.wf) {a : Nat} (ha : (a : Int) ≤ Config.wordMax) (v : Word) :
    (m.write a v).wf := by
  induction m with
  | nil => exact Memory.wf_push Memory.wf_nil ha (by simp)
  | cons c m ih =>
    have hlt : ∀ d ∈ m, c.1 < d.1 := (List.pairwise_cons.1 hm.1).1
    simp only [Memory.write]
    split
    · next hac =>
      refine Memory.wf_push hm ha ?_
      intro d hd
      rcases List.mem_cons.1 hd with rfl | hd
      · exact hac
      · exact Nat.lt_trans hac (hlt d hd)
    · split
      · next hac => exact Memory.wf_push (Memory.wf_tail hm) ha (by simpa [hac] using hlt)
      · next hlt' hne =>
        have hw := ih (Memory.wf_tail hm)
        refine ⟨List.pairwise_cons.2 ⟨?_, hw.1⟩, ?_⟩
        · intro d hd
          rcases Memory.mem_write hd with hd | ⟨rfl, -⟩
          · exact hlt d hd
          · exact Nat.lt_of_le_of_ne (Nat.le_of_not_lt hlt') (fun h => hne h.symm)
        · intro d hd
          rcases List.mem_cons.1 hd with rfl | hd
          · exact hm.2 _ (by simp)
          · exact hw.2 d hd

/-- The cells an image lists lie from its base upward. -/
theorem Memory.ofImage_base_le {base : Nat} {vs : List Word} {d : Nat × Word}
    (h : d ∈ Memory.ofImage base vs) : base ≤ d.1 := by
  induction vs generalizing base with
  | nil => simp [Memory.ofImage] at h
  | cons v vs ih =>
    simp only [Memory.ofImage, Memory.push] at h
    split at h
    · exact Nat.le_of_succ_le (ih h)
    · rcases List.mem_cons.1 h with rfl | h
      · exact Nat.le_refl _
      · exact Nat.le_of_succ_le (ih h)

/-- An image that fits in the address space is laid out in canonical form. -/
theorem Memory.wf_ofImage (base : Nat) (vs : List Word)
    (h : base + vs.length ≤ Config.maxImageLength) : (Memory.ofImage base vs).wf := by
  induction vs generalizing base with
  | nil => exact Memory.wf_nil
  | cons v vs ih =>
    simp only [List.length_cons] at h
    refine Memory.wf_push (ih (base + 1) (by omega)) ?_ ?_
    · have : base < Config.maxImageLength := by omega
      simp only [Config.maxImageLength, Config.wordMax] at *
      omega
    · intro c hc
      exact Memory.ofImage_base_le hc

/-- Storing cells one after another keeps the canonical form. -/
theorem Memory.wf_writeAll {m : Memory} (hm : m.wf) (a : Nat) (vs : List Word) :
    (Memory.writeAll m a vs).wf := by
  induction vs generalizing m a with
  | nil => exact hm
  | cons v vs ih =>
    simp only [Memory.writeAll]
    refine ih ?_ (a + 1)
    split
    · next ha => exact Memory.wf_write hm ha v
    · exact hm

end Sys2Proof.Machine
end

