-- ==== Sys2Proof/Laws/State.lean ====
section
/-! SUPPORT. One lemma for each field and each update of the state, and the same for the two compound updates, storing a
cell and raising a fault. -/

namespace Sys2Proof.Machine

@[simp] theorem State.setMem_mem (s : State) (m : Memory) : (s.setMem m).mem = m := rfl
@[simp] theorem State.setMem_ip (s : State) (m : Memory) : (s.setMem m).ip = s.ip := rfl
@[simp] theorem State.setMem_rb (s : State) (m : Memory) : (s.setMem m).rb = s.rb := rfl
@[simp] theorem State.setMem_inQ (s : State) (m : Memory) : (s.setMem m).inQ = s.inQ := rfl
@[simp] theorem State.setMem_outQ (s : State) (m : Memory) : (s.setMem m).outQ = s.outQ := rfl
@[simp] theorem State.setMem_status (s : State) (m : Memory) : (s.setMem m).status = s.status := rfl
@[simp] theorem State.setMem_faultKind (s : State) (m : Memory) : (s.setMem m).faultKind = s.faultKind := rfl

@[simp] theorem State.setIp_mem (s : State) (a : Word) : (s.setIp a).mem = s.mem := rfl
@[simp] theorem State.setIp_ip (s : State) (a : Word) : (s.setIp a).ip = a := rfl
@[simp] theorem State.setIp_rb (s : State) (a : Word) : (s.setIp a).rb = s.rb := rfl
@[simp] theorem State.setIp_inQ (s : State) (a : Word) : (s.setIp a).inQ = s.inQ := rfl
@[simp] theorem State.setIp_outQ (s : State) (a : Word) : (s.setIp a).outQ = s.outQ := rfl
@[simp] theorem State.setIp_status (s : State) (a : Word) : (s.setIp a).status = s.status := rfl
@[simp] theorem State.setIp_faultKind (s : State) (a : Word) : (s.setIp a).faultKind = s.faultKind := rfl

@[simp] theorem State.setRb_mem (s : State) (b : Word) : (s.setRb b).mem = s.mem := rfl
@[simp] theorem State.setRb_ip (s : State) (b : Word) : (s.setRb b).ip = s.ip := rfl
@[simp] theorem State.setRb_rb (s : State) (b : Word) : (s.setRb b).rb = b := rfl
@[simp] theorem State.setRb_inQ (s : State) (b : Word) : (s.setRb b).inQ = s.inQ := rfl
@[simp] theorem State.setRb_outQ (s : State) (b : Word) : (s.setRb b).outQ = s.outQ := rfl
@[simp] theorem State.setRb_status (s : State) (b : Word) : (s.setRb b).status = s.status := rfl
@[simp] theorem State.setRb_faultKind (s : State) (b : Word) : (s.setRb b).faultKind = s.faultKind := rfl

@[simp] theorem State.setInQ_mem (s : State) (q : List Word) : (s.setInQ q).mem = s.mem := rfl
@[simp] theorem State.setInQ_ip (s : State) (q : List Word) : (s.setInQ q).ip = s.ip := rfl
@[simp] theorem State.setInQ_rb (s : State) (q : List Word) : (s.setInQ q).rb = s.rb := rfl
@[simp] theorem State.setInQ_inQ (s : State) (q : List Word) : (s.setInQ q).inQ = q := rfl
@[simp] theorem State.setInQ_outQ (s : State) (q : List Word) : (s.setInQ q).outQ = s.outQ := rfl
@[simp] theorem State.setInQ_status (s : State) (q : List Word) : (s.setInQ q).status = s.status := rfl
@[simp] theorem State.setInQ_faultKind (s : State) (q : List Word) : (s.setInQ q).faultKind = s.faultKind := rfl

@[simp] theorem State.setOutQ_mem (s : State) (q : List Word) : (s.setOutQ q).mem = s.mem := rfl
@[simp] theorem State.setOutQ_ip (s : State) (q : List Word) : (s.setOutQ q).ip = s.ip := rfl
@[simp] theorem State.setOutQ_rb (s : State) (q : List Word) : (s.setOutQ q).rb = s.rb := rfl
@[simp] theorem State.setOutQ_inQ (s : State) (q : List Word) : (s.setOutQ q).inQ = s.inQ := rfl
@[simp] theorem State.setOutQ_outQ (s : State) (q : List Word) : (s.setOutQ q).outQ = q := rfl
@[simp] theorem State.setOutQ_status (s : State) (q : List Word) : (s.setOutQ q).status = s.status := rfl
@[simp] theorem State.setOutQ_faultKind (s : State) (q : List Word) : (s.setOutQ q).faultKind = s.faultKind := rfl

@[simp] theorem State.setStatus_mem (s : State) (x : Status) : (s.setStatus x).mem = s.mem := rfl
@[simp] theorem State.setStatus_ip (s : State) (x : Status) : (s.setStatus x).ip = s.ip := rfl
@[simp] theorem State.setStatus_rb (s : State) (x : Status) : (s.setStatus x).rb = s.rb := rfl
@[simp] theorem State.setStatus_inQ (s : State) (x : Status) : (s.setStatus x).inQ = s.inQ := rfl
@[simp] theorem State.setStatus_outQ (s : State) (x : Status) : (s.setStatus x).outQ = s.outQ := rfl
@[simp] theorem State.setStatus_status (s : State) (x : Status) : (s.setStatus x).status = x := rfl
@[simp] theorem State.setStatus_faultKind (s : State) (x : Status) : (s.setStatus x).faultKind = s.faultKind := rfl

@[simp] theorem State.setFaultKind_mem (s : State) (k : Option FaultKind) : (s.setFaultKind k).mem = s.mem := rfl
@[simp] theorem State.setFaultKind_ip (s : State) (k : Option FaultKind) : (s.setFaultKind k).ip = s.ip := rfl
@[simp] theorem State.setFaultKind_rb (s : State) (k : Option FaultKind) : (s.setFaultKind k).rb = s.rb := rfl
@[simp] theorem State.setFaultKind_inQ (s : State) (k : Option FaultKind) : (s.setFaultKind k).inQ = s.inQ := rfl
@[simp] theorem State.setFaultKind_outQ (s : State) (k : Option FaultKind) : (s.setFaultKind k).outQ = s.outQ := rfl
@[simp] theorem State.setFaultKind_status (s : State) (k : Option FaultKind) : (s.setFaultKind k).status = s.status := rfl
@[simp] theorem State.setFaultKind_faultKind (s : State) (k : Option FaultKind) : (s.setFaultKind k).faultKind = k := rfl

@[simp] theorem State.store_mem (s : State) (a : Nat) (v : Word) : (s.store a v).mem = s.mem.write a v := rfl
@[simp] theorem State.store_ip (s : State) (a : Nat) (v : Word) : (s.store a v).ip = s.ip := rfl
@[simp] theorem State.store_rb (s : State) (a : Nat) (v : Word) : (s.store a v).rb = s.rb := rfl
@[simp] theorem State.store_inQ (s : State) (a : Nat) (v : Word) : (s.store a v).inQ = s.inQ := rfl
@[simp] theorem State.store_outQ (s : State) (a : Nat) (v : Word) : (s.store a v).outQ = s.outQ := rfl
@[simp] theorem State.store_status (s : State) (a : Nat) (v : Word) : (s.store a v).status = s.status := rfl
@[simp] theorem State.store_faultKind (s : State) (a : Nat) (v : Word) : (s.store a v).faultKind = s.faultKind := rfl

@[simp] theorem raise_mem (k : FaultKind) (s : State) : (raise k s).mem = s.mem := rfl
@[simp] theorem raise_ip (k : FaultKind) (s : State) : (raise k s).ip = s.ip := rfl
@[simp] theorem raise_rb (k : FaultKind) (s : State) : (raise k s).rb = s.rb := rfl
@[simp] theorem raise_inQ (k : FaultKind) (s : State) : (raise k s).inQ = s.inQ := rfl
@[simp] theorem raise_outQ (k : FaultKind) (s : State) : (raise k s).outQ = s.outQ := rfl
@[simp] theorem raise_status (k : FaultKind) (s : State) : (raise k s).status = .faulted := rfl
@[simp] theorem raise_faultKind (k : FaultKind) (s : State) : (raise k s).faultKind = some k := rfl

@[simp] theorem State.load_ip (program : List Word) : (State.load program).ip = 0 := rfl
@[simp] theorem State.load_rb (program : List Word) : (State.load program).rb = 0 := rfl
@[simp] theorem State.load_inQ (program : List Word) : (State.load program).inQ = [] := rfl
@[simp] theorem State.load_outQ (program : List Word) : (State.load program).outQ = [] := rfl
@[simp] theorem State.load_status (program : List Word) : (State.load program).status = .ready := rfl
@[simp] theorem State.load_faultKind (program : List Word) : (State.load program).faultKind = none := rfl
@[simp] theorem State.load_mem (program : List Word) :
    (State.load program).mem = Memory.ofImage 0 program := rfl

/-- Two states with the same seven components are the same state. -/
theorem State.ext_fields {s t : State} (hm : s.mem = t.mem) (hi : s.ip = t.ip) (hr : s.rb = t.rb)
    (hq : s.inQ = t.inQ) (ho : s.outQ = t.outQ) (hs : s.status = t.status)
    (hk : s.faultKind = t.faultKind) : s = t := by
  cases s
  cases t
  simp_all

end Sys2Proof.Machine
end

