-- ==== Sys2Proof/Laws/Ops.lean ====
section
/-! SUPPORT. What each shared operation answers, said once: address checks, the two memory primitives, operands,
successor and target, and the end of a step. -/

namespace Sys2Proof.Machine

/-! ### Addresses and memory -/

theorem checkAddr_of_isAddr {z : Int} (h : isAddr z) : checkAddr z = .ok z.toNat := if_pos h

theorem checkAddr_of_not_isAddr {z : Int} (h : ¬ isAddr z) : checkAddr z = .error .negativeAddress :=
  if_neg h

theorem checkAddr_ok {z : Int} {n : Nat} (h : checkAddr z = .ok n) : isAddr z ∧ n = z.toNat := by
  unfold checkAddr at h
  split at h
  · next hz => exact ⟨hz, by simpa using h.symm⟩
  · cases h

theorem checkAddr_error {z : Int} {k : FaultKind} (h : checkAddr z = .error k) :
    ¬ isAddr z ∧ k = .negativeAddress := by
  unfold checkAddr at h
  split at h
  · cases h
  · next hz => exact ⟨hz, by simpa using h.symm⟩

/-- An address is at most WORD_MAX. -/
theorem isAddr.toNat_le {z : Int} (h : isAddr z) : (z.toNat : Int) ≤ Config.wordMax := by
  rw [Int.toNat_of_nonneg h.1]
  exact h.2

theorem memRead_of_isAddr (m : Memory) {z : Int} (h : isAddr z) : memRead m z = .ok (m.read z.toNat) := by
  simp [memRead, checkAddr_of_isAddr h]

theorem memRead_of_not_isAddr (m : Memory) {z : Int} (h : ¬ isAddr z) :
    memRead m z = .error .negativeAddress := by
  simp [memRead, checkAddr_of_not_isAddr h]

theorem memWrite_of_isAddr (m : Memory) {z : Int} (h : isAddr z) (v : Word) :
    memWrite m z v = .ok (m.write z.toNat v) := by
  simp [memWrite, checkAddr_of_isAddr h]

theorem memWrite_of_not_isAddr (m : Memory) {z : Int} (h : ¬ isAddr z) (v : Word) :
    memWrite m z v = .error .negativeAddress := by
  simp [memWrite, checkAddr_of_not_isAddr h]

theorem memWrite_wf {m m' : Memory} (hm : m.wf) {z : Int} {v : Word} (h : memWrite m z v = .ok m') :
    m'.wf := by
  by_cases hz : isAddr z
  · rw [memWrite_of_isAddr m hz] at h
    cases h
    exact Memory.wf_write hm hz.toNat_le v
  · rw [memWrite_of_not_isAddr m hz] at h
    cases h

/-- A cell of a state after a store. -/
theorem State.store_cell_other (s : State) {a b : Nat} (v : Word) (h : b ≠ a) :
    (s.store a v).cell b = s.cell b :=
  Memory.read_write_other v s.mem h

theorem State.store_cell_same {s : State} (hm : s.mem.wf) (a : Nat) (v : Word) :
    (s.store a v).cell a = v :=
  Memory.read_write_same hm a v

/-! ### Operands -/

theorem readOperand_of_canRead {s : State} {p : Param} (h : canRead s p) :
    readOperand s p = .ok (valueOf s p) := by
  obtain ⟨m, r⟩ := p
  cases m
  · have ha : isAddr r.toInt := by simpa [canRead, effAddr] using h
    simp [readOperand, valueOf, effAddr, memRead_of_isAddr _ ha, State.cell]
  · simp [readOperand, valueOf]
  · have ha : isAddr (r.toInt + s.rb.toInt) := by simpa [canRead, effAddr] using h
    simp [readOperand, valueOf, effAddr, memRead_of_isAddr _ ha, State.cell]

theorem readOperand_of_not_canRead {s : State} {p : Param} (h : ¬ canRead s p) :
    readOperand s p = .error .negativeAddress := by
  obtain ⟨m, r⟩ := p
  cases m
  · have ha : ¬ isAddr r.toInt := by simpa [canRead, effAddr] using h
    simp [readOperand, memRead_of_not_isAddr _ ha]
  · simp [canRead] at h
  · have ha : ¬ isAddr (r.toInt + s.rb.toInt) := by simpa [canRead, effAddr] using h
    simp [readOperand, memRead_of_not_isAddr _ ha]

theorem readOperand_ok {s : State} {p : Param} {r : Word} (h : readOperand s p = .ok r) :
    canRead s p ∧ r = valueOf s p := by
  by_cases hp : canRead s p
  · rw [readOperand_of_canRead hp] at h
    exact ⟨hp, by simpa using h.symm⟩
  · rw [readOperand_of_not_canRead hp] at h
    cases h

theorem readOperand_error {s : State} {p : Param} {k : FaultKind} (h : readOperand s p = .error k) :
    ¬ canRead s p ∧ k = .negativeAddress := by
  by_cases hp : canRead s p
  · rw [readOperand_of_canRead hp] at h
    cases h
  · rw [readOperand_of_not_canRead hp] at h
    exact ⟨hp, by simpa using h.symm⟩

theorem writeAddr_of_canWrite {s : State} {p : Param} (h : canWrite s p) :
    writeAddr s p = .ok (targetOf s p) := by
  obtain ⟨m, r⟩ := p
  cases m
  · have ha : isAddr r.toInt := by simpa [canWrite, effAddr] using h
    simp [writeAddr, targetOf, effAddr, checkAddr_of_isAddr ha]
  · simp [canWrite] at h
  · have ha : isAddr (r.toInt + s.rb.toInt) := by simpa [canWrite, effAddr] using h
    simp [writeAddr, targetOf, effAddr, checkAddr_of_isAddr ha]

theorem writeAddr_of_not_canWrite {s : State} {p : Param} (hw : p.mode ≠ .immediate)
    (h : ¬ canWrite s p) : writeAddr s p = .error .negativeAddress := by
  obtain ⟨m, r⟩ := p
  cases m
  · have ha : ¬ isAddr r.toInt := by simpa [canWrite, effAddr] using h
    simp [writeAddr, checkAddr_of_not_isAddr ha]
  · simp at hw
  · have ha : ¬ isAddr (r.toInt + s.rb.toInt) := by simpa [canWrite, effAddr] using h
    simp [writeAddr, checkAddr_of_not_isAddr ha]

theorem writeAddr_ok {s : State} {p : Param} {a : Nat} (h : writeAddr s p = .ok a) :
    canWrite s p ∧ a = targetOf s p := by
  by_cases hw : p.mode = .immediate
  · simp [writeAddr, hw] at h
  · by_cases hp : canWrite s p
    · rw [writeAddr_of_canWrite hp] at h
      exact ⟨hp, by simpa using h.symm⟩
    · rw [writeAddr_of_not_canWrite hw hp] at h
      cases h

/-- The cell a write parameter names is an address. -/
theorem canWrite.target_le {s : State} {p : Param} (h : canWrite s p) :
    (targetOf s p : Int) ≤ Config.wordMax := h.2.toNat_le

theorem writable_iff {p : Param} : p.writable = true ↔ p.mode ≠ .immediate := by
  simp [Param.writable]

theorem checkWritable_of_writable {p : Param} (h : p.writable = true) : checkWritable p = .ok () :=
  if_pos h

theorem checkWritable_of_not_writable {p : Param} (h : ¬ p.writable = true) :
    checkWritable p = .error .invalidMode := if_neg h

/-! ### Parameter cells, successor, target -/

theorem paramCells_of_room {s : State} {n : Nat} (h : ipRoom s n) : paramCells s n = .ok () :=
  if_neg (Int.not_lt.2 h)

theorem paramCells_of_not_room {s : State} {n : Nat} (h : ¬ ipRoom s n) :
    paramCells s n = .error .negativeAddress := if_pos (Int.not_le.1 h)

theorem seqNext_of_room {s : State} {n : Nat} (h : ipRoom s n) : seqNext s n = .ok (ipPlus s n) :=
  if_neg (Int.not_lt.2 h)

theorem seqNext_of_not_room {s : State} {n : Nat} (h : ¬ ipRoom s n) :
    seqNext s n = .error .negativeAddress := if_pos (Int.not_le.1 h)

theorem jumpTarget_of_nonneg {t : Word} (h : 0 ≤ t.toInt) : jumpTarget t = .ok t :=
  if_neg (Int.not_lt.2 h)

theorem jumpTarget_of_neg {t : Word} (h : t.toInt < 0) : jumpTarget t = .error .negativeAddress :=
  if_pos h

/-- Room for more cells is room for fewer. -/
theorem ipRoom.mono {s : State} {m n : Nat} (h : ipRoom s n) (hmn : m ≤ n) : ipRoom s m := by
  unfold ipRoom at *
  omega

/-- The successor of an `ip` that is not negative is not negative. -/
theorem ipPlus_toInt {s : State} {n : Nat} (h0 : 0 ≤ s.ip.toInt) (h : ipRoom s n) :
    (ipPlus s n).toInt = s.ip.toInt + n := by
  unfold ipRoom Config.wordMax at h
  unfold ipPlus
  rw [BitVec.toInt_ofInt, Int.bmod_eq_of_le] <;> simp only [Config.wordBits] at * <;> omega

/-! ### The end of a step -/

@[simp] theorem conclude_ok (s t : State) : conclude s (.ok t) = .next t := rfl
@[simp] theorem conclude_error (s : State) (k : FaultKind) : conclude s (.error k) = .next (raise k s) := rfl

/-- A step's end answers the committed state or the raised fault, and nothing else. -/
theorem conclude_cases {s u : State} {e : Except FaultKind State} (h : conclude s e = .next u) :
    e = .ok u ∨ ∃ k, e = .error k ∧ u = raise k s := by
  cases e with
  | ok t => exact .inl (by simpa using h)
  | error k => exact .inr ⟨k, rfl, by simpa using h.symm⟩

end Sys2Proof.Machine
end

