-- ==== Sys2Proof/Laws/Exec.lean ====
section
/-! SUPPORT. The stages that instructions share, said once: when they commit and what, and which fault they end in
otherwise. The meanings of the ten instructions are cited through these and never unfolded further. -/

namespace Sys2Proof.Machine

/-! ### ADD, MUL, LT, EQ -/

/-- All that the stages of ADD, MUL, LT and EQ can do. -/
theorem storeResult_cases (f : Word → Word → Word) (p1 p2 p3 : Param) (s : State) :
    (p3.mode = .immediate ∧ storeResult f p1 p2 p3 s = .error .invalidMode) ∨
    (p3.mode ≠ .immediate ∧ ¬ (canRead s p1 ∧ canRead s p2 ∧ canWrite s p3 ∧ ipRoom s 4) ∧
      storeResult f p1 p2 p3 s = .error .negativeAddress) ∨
    ((canRead s p1 ∧ canRead s p2 ∧ canWrite s p3 ∧ ipRoom s 4) ∧
      storeResult f p1 p2 p3 s =
        .ok ((s.store (targetOf s p3) (f (valueOf s p1) (valueOf s p2))).setIp (ipPlus s 4))) := by
  by_cases hi : p3.mode = .immediate
  · refine .inl ⟨hi, ?_⟩
    have hw : ¬ p3.writable = true := by simp [Param.writable, hi]
    simp [storeResult, checkWritable_of_not_writable hw, bind, Except.bind]
  · right
    have hw : p3.writable = true := writable_iff.2 hi
    by_cases h1 : canRead s p1
    · by_cases h2 : canRead s p2
      · by_cases h3 : canWrite s p3
        · by_cases h4 : ipRoom s 4
          · right
            refine ⟨⟨h1, h2, h3, h4⟩, ?_⟩
            simp [storeResult, checkWritable_of_writable hw, paramCells_of_room (h4.mono (by omega : 3 ≤ 4)),
              readOperand_of_canRead h1, readOperand_of_canRead h2, writeAddr_of_canWrite h3,
              seqNext_of_room h4, bind, Except.bind, pure, Except.pure]
          · left
            refine ⟨hi, fun h => h4 h.2.2.2, ?_⟩
            by_cases h5 : ipRoom s 3
            · simp [storeResult, checkWritable_of_writable hw, paramCells_of_room h5,
                readOperand_of_canRead h1, readOperand_of_canRead h2, writeAddr_of_canWrite h3,
                seqNext_of_not_room h4, bind, Except.bind]
            · simp [storeResult, checkWritable_of_writable hw, paramCells_of_not_room h5, bind, Except.bind]
        · left
          refine ⟨hi, fun h => h3 h.2.2.1, ?_⟩
          by_cases h5 : ipRoom s 3
          · simp [storeResult, checkWritable_of_writable hw, paramCells_of_room h5,
              readOperand_of_canRead h1, readOperand_of_canRead h2, writeAddr_of_not_canWrite hi h3,
              bind, Except.bind]
          · simp [storeResult, checkWritable_of_writable hw, paramCells_of_not_room h5, bind, Except.bind]
      · left
        refine ⟨hi, fun h => h2 h.2.1, ?_⟩
        by_cases h5 : ipRoom s 3
        · simp [storeResult, checkWritable_of_writable hw, paramCells_of_room h5,
            readOperand_of_canRead h1, readOperand_of_not_canRead h2, bind, Except.bind]
        · simp [storeResult, checkWritable_of_writable hw, paramCells_of_not_room h5, bind, Except.bind]
    · left
      refine ⟨hi, fun h => h1 h.1, ?_⟩
      by_cases h5 : ipRoom s 3
      · simp [storeResult, checkWritable_of_writable hw, paramCells_of_room h5,
          readOperand_of_not_canRead h1, bind, Except.bind]
      · simp [storeResult, checkWritable_of_writable hw, paramCells_of_not_room h5, bind, Except.bind]

/-! ### IN -/

/-- All that the stages of IN can do. -/
theorem takeInput_cases (p1 : Param) (s : State) :
    (p1.mode = .immediate ∧ takeInput p1 s = .error .invalidMode) ∨
    (p1.mode ≠ .immediate ∧ ¬ (canWrite s p1 ∧ ipRoom s 2) ∧
      takeInput p1 s = .error .negativeAddress) ∨
    ((canWrite s p1 ∧ ipRoom s 2) ∧ s.inQ = [] ∧ takeInput p1 s = .ok (s.setStatus .awaitingInput)) ∨
    ((canWrite s p1 ∧ ipRoom s 2) ∧ ∃ v rest, s.inQ = v :: rest ∧
      takeInput p1 s = .ok (((s.setInQ rest).store (targetOf s p1) v).setIp (ipPlus s 2))) := by
  by_cases hi : p1.mode = .immediate
  · refine .inl ⟨hi, ?_⟩
    have hw : ¬ p1.writable = true := by simp [Param.writable, hi]
    simp [takeInput, checkWritable_of_not_writable hw, bind, Except.bind]
  · right
    have hw : p1.writable = true := writable_iff.2 hi
    by_cases h1 : canWrite s p1
    · by_cases h2 : ipRoom s 2
      · right
        cases hq : s.inQ with
        | nil =>
          refine .inl ⟨⟨h1, h2⟩, rfl, ?_⟩
          simp [takeInput, checkWritable_of_writable hw, paramCells_of_room (h2.mono (by omega : 1 ≤ 2)),
            writeAddr_of_canWrite h1, seqNext_of_room h2, hq, bind, Except.bind, pure, Except.pure]
        | cons v rest =>
          refine .inr ⟨⟨h1, h2⟩, v, rest, rfl, ?_⟩
          simp [takeInput, checkWritable_of_writable hw, paramCells_of_room (h2.mono (by omega : 1 ≤ 2)),
            writeAddr_of_canWrite h1, seqNext_of_room h2, hq, bind, Except.bind, pure, Except.pure]
      · left
        refine ⟨hi, fun h => h2 h.2, ?_⟩
        by_cases h5 : ipRoom s 1
        · simp [takeInput, checkWritable_of_writable hw, paramCells_of_room h5, writeAddr_of_canWrite h1,
            seqNext_of_not_room h2, bind, Except.bind]
        · simp [takeInput, checkWritable_of_writable hw, paramCells_of_not_room h5, bind, Except.bind]
    · left
      refine ⟨hi, fun h => h1 h.1, ?_⟩
      by_cases h5 : ipRoom s 1
      · simp [takeInput, checkWritable_of_writable hw, paramCells_of_room h5,
          writeAddr_of_not_canWrite hi h1, bind, Except.bind]
      · simp [takeInput, checkWritable_of_writable hw, paramCells_of_not_room h5, bind, Except.bind]

/-! ### OUT, ARB -/

/-- All that the stages of OUT and ARB can do. -/
theorem useOperand_cases (g : Word → State → State) (p1 : Param) (s : State) :
    (¬ (canRead s p1 ∧ ipRoom s 2) ∧ useOperand g p1 s = .error .negativeAddress) ∨
    ((canRead s p1 ∧ ipRoom s 2) ∧
      useOperand g p1 s = .ok ((g (valueOf s p1) s).setIp (ipPlus s 2))) := by
  by_cases h1 : canRead s p1
  · by_cases h2 : ipRoom s 2
    · right
      refine ⟨⟨h1, h2⟩, ?_⟩
      simp [useOperand, paramCells_of_room (h2.mono (by omega : 1 ≤ 2)), readOperand_of_canRead h1,
        seqNext_of_room h2, bind, Except.bind, pure, Except.pure]
    · left
      refine ⟨fun h => h2 h.2, ?_⟩
      by_cases h5 : ipRoom s 1
      · simp [useOperand, paramCells_of_room h5, readOperand_of_canRead h1, seqNext_of_not_room h2,
          bind, Except.bind]
      · simp [useOperand, paramCells_of_not_room h5, bind, Except.bind]
  · left
    refine ⟨fun h => h1 h.1, ?_⟩
    by_cases h5 : ipRoom s 1
    · simp [useOperand, paramCells_of_room h5, readOperand_of_not_canRead h1, bind, Except.bind]
    · simp [useOperand, paramCells_of_not_room h5, bind, Except.bind]

/-! ### JT, JF -/

/-- A jump's next `ip` exists: the target if it is taken, the successor if not. -/
def jumpOk (taken : Word → Bool) (p1 p2 : Param) (s : State) : Prop :=
  if taken (valueOf s p1) = true then 0 ≤ (valueOf s p2).toInt else ipRoom s 3

/-- All that the stages of JT and JF can do. -/
theorem jumpWhen_cases (taken : Word → Bool) (p1 p2 : Param) (s : State) :
    (¬ (ipRoom s 2 ∧ canRead s p1 ∧ canRead s p2 ∧ jumpOk taken p1 p2 s) ∧
      jumpWhen taken p1 p2 s = .error .negativeAddress) ∨
    ((ipRoom s 2 ∧ canRead s p1 ∧ canRead s p2 ∧ jumpOk taken p1 p2 s) ∧
      jumpWhen taken p1 p2 s =
        .ok (s.setIp (if taken (valueOf s p1) = true then valueOf s p2 else ipPlus s 3))) := by
  by_cases h0 : ipRoom s 2
  · by_cases h1 : canRead s p1
    · by_cases h2 : canRead s p2
      · by_cases ht : taken (valueOf s p1) = true
        · by_cases h3 : 0 ≤ (valueOf s p2).toInt
          · right
            refine ⟨⟨h0, h1, h2, by simpa [jumpOk, ht] using h3⟩, ?_⟩
            simp [jumpWhen, paramCells_of_room h0, readOperand_of_canRead h1, readOperand_of_canRead h2, ht,
              jumpTarget_of_nonneg h3, bind, Except.bind, pure, Except.pure]
          · left
            refine ⟨fun h => h3 (by simpa [jumpOk, ht] using h.2.2.2), ?_⟩
            simp [jumpWhen, paramCells_of_room h0, readOperand_of_canRead h1, readOperand_of_canRead h2, ht,
              jumpTarget_of_neg (Int.not_le.1 h3), bind, Except.bind]
        · by_cases h3 : ipRoom s 3
          · right
            refine ⟨⟨h0, h1, h2, by simpa [jumpOk, ht] using h3⟩, ?_⟩
            simp [jumpWhen, paramCells_of_room h0, readOperand_of_canRead h1, readOperand_of_canRead h2, ht,
              seqNext_of_room h3, bind, Except.bind, pure, Except.pure]
          · left
            refine ⟨fun h => h3 (by simpa [jumpOk, ht] using h.2.2.2), ?_⟩
            simp [jumpWhen, paramCells_of_room h0, readOperand_of_canRead h1, readOperand_of_canRead h2, ht,
              seqNext_of_not_room h3, bind, Except.bind]
      · left
        refine ⟨fun h => h2 h.2.2.1, ?_⟩
        simp [jumpWhen, paramCells_of_room h0, readOperand_of_canRead h1, readOperand_of_not_canRead h2,
          bind, Except.bind]
    · left
      refine ⟨fun h => h1 h.2.1, ?_⟩
      simp [jumpWhen, paramCells_of_room h0, readOperand_of_not_canRead h1, bind, Except.bind]
  · left
    refine ⟨fun h => h0 h.1, ?_⟩
    simp [jumpWhen, paramCells_of_not_room h0, bind, Except.bind]

end Sys2Proof.Machine
end

