-- ==== Sys2Proof/Laws/Decode.lean ====
section
/-! SUPPORT. Small lemmas of the decoder and the encoder: the maps undo one another, and what each part of the decoder
answers. -/

namespace Sys2Proof

@[simp] theorem opcodeOf_number (op : Opcode) : opcodeOf op.number = some op := by
  cases op <;> rfl

@[simp] theorem modeOf_digit (m : Mode) : modeOf m.digit = some m := by
  cases m <;> rfl

/-- The opcode map names an opcode by its own number only. -/
theorem number_of_opcodeOf {n : Nat} {op : Opcode} (h : opcodeOf n = some op) : op.number = n := by
  unfold opcodeOf at h
  split at h <;> cases h <;> rfl

/-- The mode map names a mode by its own digit only. -/
theorem digit_of_modeOf {n : Nat} {m : Mode} (h : modeOf n = some m) : m.digit = n := by
  unfold modeOf at h
  split at h <;> cases h <;> rfl

/-- The numbers the opcode map does not name. -/
theorem opcodeOf_eq_none {n : Nat} : opcodeOf n = none ↔ n ∉ [1, 2, 3, 4, 5, 6, 7, 8, 9, 99] := by
  constructor
  · intro h hn
    fin_cases hn <;> cases h
  · intro h
    cases ho : opcodeOf n with
    | none => rfl
    | some op =>
      have := number_of_opcodeOf ho
      cases op <;> simp [← this, Opcode.number] at h

/-- The digits the mode map does not name. -/
theorem modeOf_eq_none {n : Nat} : modeOf n = none ↔ 2 < n := by
  match n with
  | 0 => simp [modeOf]
  | 1 => simp [modeOf]
  | 2 => simp [modeOf]
  | n + 3 => simp [modeOf]

theorem Mode.digit_le (m : Mode) : m.digit ≤ 2 := by
  cases m <;> decide

theorem Opcode.number_lt (op : Opcode) : op.number < 100 := by
  cases op <;> decide

theorem Opcode.nparams_le (op : Opcode) : op.nparams ≤ 3 := by
  cases op <;> decide

/-- A Word that is not negative has one value, signed or not. -/
theorem Word.toNat_of_nonneg {w : Word} (h : 0 ≤ w.toInt) : (w.toNat : Int) = w.toInt := by
  by_cases hw : 2 * w.toNat < 2 ^ Config.wordBits
  · rw [BitVec.toInt_eq_toNat_of_lt hw]
  · have hlt := w.isLt
    rw [BitVec.toInt_eq_toNat_cond, if_neg hw] at h
    omega

theorem decode_cons_of_error {w : Word} {k : FaultKind} (cells : List Word)
    (h : decodeWord w = .error k) : decode (w :: cells) = .error k := by
  simp [decode, h]

theorem decode_cons_of_immediate_write {w : Word} {hd : Header} (cells : List Word)
    (h : decodeWord w = .ok hd) (hw : hd.writeMode = some .immediate) :
    decode (w :: cells) = .error .invalidMode := by
  simp [decode, h, checkWriteMode, hw]

theorem decode_cons_of_ok {w : Word} {hd : Header} (cells : List Word)
    (h : decodeWord w = .ok hd) (hw : hd.writeMode ≠ some .immediate) :
    decode (w :: cells) = assemble hd cells := by
  simp [decode, h, checkWriteMode, hw]

/-- The cells of an instruction are its word and one for each parameter. -/
theorem encode_length (i : Instr) : (encode i).length = i.len := by
  cases i <;> rfl

/-- The term check and the header check are the same check. -/
theorem wf_iff_writeMode (i : Instr) : i.wf = true ↔ i.header.writeMode ≠ some .immediate := by
  cases i <;> simp [Instr.wf, Instr.header, Header.writeMode, Param.writable]

end Sys2Proof
end

