-- ==== Sys2Proof/Laws/Fetch.lean ====
section
/-! SUPPORT. What the fetch reads and what it depends on, and the cases of a step. -/

namespace Sys2Proof.Machine

/-- The fetch reads the memory and `ip` alone. -/
theorem fetch_congr {s t : State} (hm : s.mem = t.mem) (hi : s.ip = t.ip) : fetch s = fetch t := by
  unfold fetch cellsFrom State.cell
  rw [hm, hi]

/-- The cells from an address on: as many of the four as there are up to WORD_MAX. -/
theorem cellsFrom_cases (s : State) {a : Nat} (h : (a : Int) ≤ Config.wordMax) :
    (¬ ((a : Int) + 1 ≤ Config.wordMax) ∧ cellsFrom s a = [s.cell a]) ∨
    ((a : Int) + 1 ≤ Config.wordMax ∧ ¬ ((a : Int) + 2 ≤ Config.wordMax) ∧
      cellsFrom s a = [s.cell a, s.cell (a + 1)]) ∨
    ((a : Int) + 2 ≤ Config.wordMax ∧ ¬ ((a : Int) + 3 ≤ Config.wordMax) ∧
      cellsFrom s a = [s.cell a, s.cell (a + 1), s.cell (a + 2)]) ∨
    ((a : Int) + 3 ≤ Config.wordMax ∧
      cellsFrom s a = [s.cell a, s.cell (a + 1), s.cell (a + 2), s.cell (a + 3)]) := by
  have hr : List.range 4 = [0, 1, 2, 3] := rfl
  simp only [cellsFrom, hr, Config.wordMax] at *
  by_cases h1 : (a : Int) + 1 ≤ 9223372036854775807
  · by_cases h2 : (a : Int) + 2 ≤ 9223372036854775807
    · by_cases h3 : (a : Int) + 3 ≤ 9223372036854775807
      · simp [h, h1, h2, h3]
      · simp [h, h1, h2, h3]
    · have h3 : ¬ (a : Int) + 3 ≤ 9223372036854775807 := by omega
      simp [h, h1, h2, h3]
  · have h2 : ¬ (a : Int) + 2 ≤ 9223372036854775807 := by omega
    have h3 : ¬ (a : Int) + 3 ≤ 9223372036854775807 := by omega
    simp [h, h1, h2, h3]

/-- A Word is at most WORD_MAX. -/
theorem Word.toInt_le_max (w : Word) : w.toInt ≤ Config.wordMax := by
  have := BitVec.toInt_lt (x := w)
  simp only [Config.wordMax, Config.wordBits] at *
  omega

theorem ip_isAddr {s : State} (h : 0 ≤ s.ip.toInt) : isAddr s.ip.toInt := ⟨h, Word.toInt_le_max _⟩

/-- The fetch at an `ip` that is not negative is the decoder on the cells there. -/
theorem fetch_of_nonneg {s : State} (h : 0 ≤ s.ip.toInt) :
    fetch s = (match decode (cellsFrom s s.ip.toInt.toNat) with
      | .error k => .error k
      | .ok (i, _) => .ok i) := by
  cases hd : decode (cellsFrom s s.ip.toInt.toNat) <;> simp [fetch, checkAddr_of_isAddr (ip_isAddr h), hd]

theorem step_of_fetch_ok {s : State} {i : Instr} (hs : s.status = .running) (h : fetch s = .ok i) :
    step s = exec i s := by
  simp [step, hs, h]

theorem step_of_fetch_error {s : State} {k : FaultKind} (hs : s.status = .running)
    (h : fetch s = .error k) : step s = .next (raise k s) := by
  simp [step, hs, h]

/-! ### Placing an instruction -/

@[simp] theorem State.withFetchWord_ip (s : State) (nbits w : Nat) : (s.withFetchWord nbits w).ip = s.ip := by
  rw [State.withFetchWord, State.setStatus_ip, State.setMem_ip]

@[simp] theorem State.withFetchWord_status (s : State) (nbits w : Nat) :
    (s.withFetchWord nbits w).status = .running := by
  simp [State.withFetchWord]

@[simp] theorem State.withFetchWord_mem (s : State) (nbits w : Nat) :
    (s.withFetchWord nbits w).mem = Memory.writeAll s.mem s.ip.toNat (tableCells nbits w) := by
  simp [State.withFetchWord]

theorem map_range_four (f : Nat → Word) : (List.range 4).map f = [f 0, f 1, f 2, f 3] := rfl

/-- A placed instruction is four cells. -/
theorem tableCells_four (nbits w : Nat) : ∃ c0 c1 c2 c3, tableCells nbits w = [c0, c1, c2, c3] :=
  ⟨_, _, _, _, map_range_four _⟩

end Sys2Proof.Machine
end

