-- ==== Sys2Proof/Laws/Cases.lean ====
section
/-! SUPPORT. One inversion lemma for each layer of a step: the shared stages, a meaning, the whole step. What a later
proof needs about a next state it reads off these and never unfolds a meaning. -/

namespace Sys2Proof.Machine

/-! ### The shared stages -/

/-- The next states of ADD, MUL, LT and EQ. -/
theorem storeResult_next {f : Word → Word → Word} {p1 p2 p3 : Param} {s t : State}
    (h : conclude s (storeResult f p1 p2 p3 s) = .next t) :
    (∃ k, t = raise k s) ∨
    (canRead s p1 ∧ canRead s p2 ∧ canWrite s p3 ∧ ipRoom s 4 ∧
      t = (s.store (targetOf s p3) (f (valueOf s p1) (valueOf s p2))).setIp (ipPlus s 4)) := by
  rcases storeResult_cases f p1 p2 p3 s with ⟨-, hr⟩ | ⟨-, -, hr⟩ | ⟨⟨h1, h2, h3, h4⟩, hr⟩ <;>
    rw [hr] at h <;> cases h
  · exact .inl ⟨_, rfl⟩
  · exact .inl ⟨_, rfl⟩
  · exact .inr ⟨h1, h2, h3, h4, rfl⟩

/-- The next states of IN. -/
theorem takeInput_next {p1 : Param} {s t : State} (h : conclude s (takeInput p1 s) = .next t) :
    (∃ k, t = raise k s) ∨
    (canWrite s p1 ∧ ipRoom s 2 ∧ s.inQ = [] ∧ t = s.setStatus .awaitingInput) ∨
    (canWrite s p1 ∧ ipRoom s 2 ∧ ∃ v rest, s.inQ = v :: rest ∧
      t = ((s.setInQ rest).store (targetOf s p1) v).setIp (ipPlus s 2)) := by
  rcases takeInput_cases p1 s with ⟨-, hr⟩ | ⟨-, -, hr⟩ | ⟨⟨h1, h2⟩, hq, hr⟩ | ⟨⟨h1, h2⟩, v, rest, hq, hr⟩ <;>
    rw [hr] at h <;> cases h
  · exact .inl ⟨_, rfl⟩
  · exact .inl ⟨_, rfl⟩
  · exact .inr (.inl ⟨h1, h2, hq, rfl⟩)
  · exact .inr (.inr ⟨h1, h2, v, rest, hq, rfl⟩)

/-- The next states of OUT and ARB. -/
theorem useOperand_next {g : Word → State → State} {p1 : Param} {s t : State}
    (h : conclude s (useOperand g p1 s) = .next t) :
    (∃ k, t = raise k s) ∨
    (canRead s p1 ∧ ipRoom s 2 ∧ t = (g (valueOf s p1) s).setIp (ipPlus s 2)) := by
  rcases useOperand_cases g p1 s with ⟨-, hr⟩ | ⟨⟨h1, h2⟩, hr⟩ <;> rw [hr] at h <;> cases h
  · exact .inl ⟨_, rfl⟩
  · exact .inr ⟨h1, h2, rfl⟩

/-- The next states of JT and JF. -/
theorem jumpWhen_next {taken : Word → Bool} {p1 p2 : Param} {s t : State}
    (h : conclude s (jumpWhen taken p1 p2 s) = .next t) :
    (∃ k, t = raise k s) ∨
    (taken (valueOf s p1) = true ∧ 0 ≤ (valueOf s p2).toInt ∧ t = s.setIp (valueOf s p2)) ∨
    (¬ taken (valueOf s p1) = true ∧ ipRoom s 3 ∧ t = s.setIp (ipPlus s 3)) := by
  rcases jumpWhen_cases taken p1 p2 s with ⟨-, hr⟩ | ⟨⟨-, -, -, hok⟩, hr⟩ <;> rw [hr] at h <;> cases h
  · exact .inl ⟨_, rfl⟩
  · simp only [jumpOk] at hok
    split at hok
    · next ht => exact .inr (.inl ⟨ht, hok, by rw [if_pos ht]⟩)
    · next ht => exact .inr (.inr ⟨ht, hok, by rw [if_neg ht]⟩)

/-- The jumps' conditions, said of the Word. -/
theorem condTrue_iff {a : Word} : condTrue a = true ↔ a ≠ 0 := by
  simp [condTrue, ← BitVec.toInt_inj]

theorem condFalse_iff {a : Word} : condFalse a = true ↔ a = 0 := by
  simp [condFalse, ← BitVec.toInt_inj]

/-! ### A meaning -/

/-- Everything the meaning of an instruction can make of a state. -/
inductive ExecCase (i : Instr) (s : State) : State → Prop where
  | fault (k : FaultKind) : ExecCase i s (raise k s)
  | stored (p : Param) (v : Word) : writeParam i = some p → canWrite s p → ipRoom s 4 →
      i.header.op.nparams = 3 →
      ExecCase i s ((s.store (targetOf s p) v).setIp (ipPlus s 4))
  | suspended (p1 : Param) (u2 u3 : Mode) : i = .inp p1 u2 u3 → canWrite s p1 → ipRoom s 2 → s.inQ = [] →
      ExecCase i s (s.setStatus .awaitingInput)
  | took (p1 : Param) (u2 u3 : Mode) (v : Word) (rest : List Word) : i = .inp p1 u2 u3 → canWrite s p1 →
      ipRoom s 2 → s.inQ = v :: rest →
      ExecCase i s (((s.setInQ rest).store (targetOf s p1) v).setIp (ipPlus s 2))
  | emitted (p1 : Param) (u2 u3 : Mode) (v : Word) : i = .out p1 u2 u3 → ipRoom s 2 →
      ExecCase i s ((s.setOutQ (s.outQ ++ [v])).setIp (ipPlus s 2))
  | rebased (p1 : Param) (u2 u3 : Mode) (b : Word) : i = .arb p1 u2 u3 → ipRoom s 2 →
      ExecCase i s ((s.setRb b).setIp (ipPlus s 2))
  | jumped (p1 p2 : Param) (u3 : Mode) :
      i = .jt p1 p2 u3 ∧ valueOf s p1 ≠ 0 ∨ i = .jf p1 p2 u3 ∧ valueOf s p1 = 0 →
      0 ≤ (valueOf s p2).toInt → ExecCase i s (s.setIp (valueOf s p2))
  | fellThrough (p1 p2 : Param) (u3 : Mode) : i = .jt p1 p2 u3 ∨ i = .jf p1 p2 u3 → ipRoom s 3 →
      ExecCase i s (s.setIp (ipPlus s 3))
  | halted (u1 u2 u3 : Mode) : i = .hlt u1 u2 u3 → ExecCase i s (s.setStatus .halted)

/-- The next states of a meaning. -/
theorem exec_cases {i : Instr} {s t : State} (h : exec i s = .next t) : ExecCase i s t := by
  cases i with
  | add p1 p2 p3 | mul p1 p2 p3 | lt p1 p2 p3 | eq p1 p2 p3 =>
    obtain ⟨k, rfl⟩ | ⟨-, -, h3, h4, rfl⟩ := storeResult_next h
    · exact .fault k
    · exact .stored _ _ rfl h3 h4 rfl
  | inp p1 u2 u3 =>
    obtain ⟨k, rfl⟩ | ⟨h1, h2, hq, rfl⟩ | ⟨h1, h2, v, rest, hq, rfl⟩ := takeInput_next h
    · exact .fault k
    · exact .suspended _ _ _ rfl h1 h2 hq
    · exact .took _ _ _ _ _ rfl h1 h2 hq
  | out p1 u2 u3 =>
    obtain ⟨k, rfl⟩ | ⟨-, h2, rfl⟩ := useOperand_next h
    · exact .fault k
    · exact .emitted _ _ _ _ rfl h2
  | arb p1 u2 u3 =>
    obtain ⟨k, rfl⟩ | ⟨-, h2, rfl⟩ := useOperand_next h
    · exact .fault k
    · exact .rebased _ _ _ _ rfl h2
  | jt p1 p2 u3 =>
    obtain ⟨k, rfl⟩ | ⟨ht, h0, rfl⟩ | ⟨-, hr, rfl⟩ := jumpWhen_next h
    · exact .fault k
    · exact .jumped _ _ _ (.inl ⟨rfl, condTrue_iff.1 ht⟩) h0
    · exact .fellThrough _ _ _ (.inl rfl) hr
  | jf p1 p2 u3 =>
    obtain ⟨k, rfl⟩ | ⟨ht, h0, rfl⟩ | ⟨-, hr, rfl⟩ := jumpWhen_next h
    · exact .fault k
    · exact .jumped _ _ _ (.inr ⟨rfl, condFalse_iff.1 ht⟩) h0
    · exact .fellThrough _ _ _ (.inr rfl) hr
  | hlt u1 u2 u3 => cases h; exact .halted _ _ _ rfl

/-- The end of a step always is a next state. -/
theorem conclude_next (s : State) (e : Except FaultKind State) : ∃ t, conclude s e = .next t := by
  cases e <;> exact ⟨_, rfl⟩

/-- No meaning stops the model. -/
theorem exec_next (i : Instr) (s : State) : ∃ t, exec i s = .next t := by
  cases i with
  | hlt => exact ⟨_, rfl⟩
  | _ => exact conclude_next _ _

/-! ### The whole step -/

/-- The next states of a step of a running core. -/
theorem step_cases {s t : State} (hs : s.status = .running) (h : step s = .next t) :
    (∃ k, fetch s = .error k ∧ t = raise k s) ∨ ∃ i, fetch s = .ok i ∧ ExecCase i s t := by
  cases hf : fetch s with
  | error k => rw [step_of_fetch_error hs hf] at h; cases h; exact .inl ⟨k, rfl, rfl⟩
  | ok i => rw [step_of_fetch_ok hs hf] at h; exact .inr ⟨i, rfl, exec_cases h⟩

end Sys2Proof.Machine
end

