-- ==== Sys2Proof/Laws/Controller.lean ====
section
/-! SUPPORT. What the run loop can do, what a program image reads as, and what an iteration of the pipeline driver can
do. -/

namespace Sys2Proof.Machine

/-! ### The run loop -/

/-- The loop exits at once outside Running. -/
theorem runLoop_done (fuel : Nat) {s : State} (h : s.status ≠ .running) : runLoop fuel s = some s := by
  cases fuel <;> simp [runLoop, h]

/-- The loop goes on with the next state while Running. -/
theorem runLoop_step (fuel : Nat) {s t : State} (h : s.status = .running) (hst : step s = .next t) :
    runLoop (fuel + 1) s = runLoop fuel t := by
  simp [runLoop, h, hst]

/-- Everything a finished loop can have done. -/
theorem runLoop_cases {fuel : Nat} {s t : State} (h : runLoop fuel s = some t) :
    (s.status ≠ .running ∧ t = s) ∨
    ∃ n u, fuel = n + 1 ∧ s.status = .running ∧ step s = .next u ∧ runLoop n u = some t := by
  by_cases hs : s.status = .running
  · cases fuel with
    | zero => simp [runLoop, hs] at h
    | succ n =>
      simp only [runLoop, hs, if_true] at h
      split at h
      · next u hu => exact .inr ⟨n, u, rfl, hs, hu, h⟩
      · cases h
      · cases h
  · rw [runLoop_done fuel hs] at h
    exact .inl ⟨hs, by simpa using h.symm⟩

/-- A property that every step of a running core keeps, the loop keeps. -/
theorem runLoop_keeps {P : State → Prop}
    (hstep : ∀ s t, P s → s.status = .running → step s = .next t → P t) {fuel : Nat} {s t : State}
    (h : runLoop fuel s = some t) (hP : P s) : P t := by
  induction fuel generalizing s with
  | zero =>
    obtain ⟨-, rfl⟩ | ⟨n, _, hn, _⟩ := runLoop_cases h
    · exact hP
    · cases hn
  | succ n ih =>
    obtain ⟨-, rfl⟩ | ⟨m, u, hm, hs, hu, hl⟩ := runLoop_cases h
    · exact hP
    · cases hm
      exact ih hl (hstep _ _ hP hs hu)

/-- The loop ends outside Running. -/
theorem runLoop_not_running {fuel : Nat} {s t : State} (h : runLoop fuel s = some t) :
    t.status ≠ .running := by
  induction fuel generalizing s with
  | zero =>
    obtain ⟨hs, rfl⟩ | ⟨n, _, hn, _⟩ := runLoop_cases h
    · exact hs
    · cases hn
  | succ n ih =>
    obtain ⟨hs, rfl⟩ | ⟨m, u, hm, -, -, hl⟩ := runLoop_cases h
    · exact hs
    · cases hm
      exact ih hl

/-- More fuel does not change the answer. -/
theorem runLoop_mono {fuel : Nat} {s t : State} (h : runLoop fuel s = some t) (more : Nat) :
    runLoop (fuel + more) s = some t := by
  induction fuel generalizing s with
  | zero =>
    obtain ⟨hs, rfl⟩ | ⟨n, _, hn, _⟩ := runLoop_cases h
    · exact runLoop_done _ hs
    · cases hn
  | succ n ih =>
    obtain ⟨hs, rfl⟩ | ⟨m, u, hm, hs, hu, hl⟩ := runLoop_cases h
    · exact runLoop_done _ hs
    · cases hm
      rw [Nat.succ_add, runLoop_step _ hs hu]
      exact ih hl

/-- `Resume` runs the loop from a Ready or suspended core, and leaves a Halted or Faulted one alone. -/
theorem resume_of_waiting (fuel : Nat) {s : State} (h : s.status = .ready ∨ s.status = .awaitingInput) :
    resume fuel s = runLoop fuel (s.setStatus .running) := by
  rcases h with h | h <;> simp [resume, h]

theorem resume_of_terminal (fuel : Nat) {s : State} (h : s.status = .halted ∨ s.status = .faulted) :
    resume fuel s = some s := by
  rcases h with h | h <;> simp [resume, h]

/-! ### A program image -/

/-- Each element in its cell, and 0 above them. -/
theorem Memory.ofImage_read (base : Nat) (vs : List Word) (k : Nat) :
    (Memory.ofImage base vs).read (base + k) = vs.getD k 0 := by
  induction vs generalizing base k with
  | nil => rfl
  | cons v vs ih =>
    cases k with
    | zero =>
      rw [Nat.add_zero]
      exact Memory.read_push_same v fun c hc => Memory.ofImage_base_le hc
    | succ k =>
      rw [Memory.ofImage, Memory.read_push_other _ _ (by omega), show base + (k + 1) = base + 1 + k by omega, ih]
      rfl

/-! ### The pipeline driver -/

/-- The cores after an iteration that resumed `after`. -/
def Pipeline.moved (p : Pipeline) (after : State) : List State :=
  (p.cores.set p.turn after.drained).modify ((p.turn + 1) % p.cores.length) (State.pushAll after.outQ)

/-- The final value after an iteration that resumed `after`. -/
def Pipeline.finalAfter (p : Pipeline) (after : State) : Option Word :=
  if p.turn + 1 = p.cores.length then lastOr p.final after.outQ else p.final

/-- The idle count after an iteration that resumed `before` into `after`. -/
def Pipeline.idleAfter (p : Pipeline) (before after : State) : Nat :=
  if after.status = before.status ∧ after.outQ = [] then p.idle + 1 else 0

@[simp] theorem Pipeline.moved_length (p : Pipeline) (after : State) :
    (p.moved after).length = p.cores.length := by
  simp [Pipeline.moved]

/-- The idle count grows only by an idle iteration. -/
theorem Pipeline.idleAfter_cases (p : Pipeline) (before after : State) :
    (after.status = before.status ∧ after.outQ = [] ∧ p.idleAfter before after = p.idle + 1) ∨
    (¬ (after.status = before.status ∧ after.outQ = []) ∧ p.idleAfter before after = 0) := by
  by_cases h : after.status = before.status ∧ after.outQ = []
  · exact .inl ⟨h.1, h.2, if_pos h⟩
  · exact .inr ⟨h, if_neg h⟩

/-- The turn names a core where there is one to resume. -/
theorem Pipeline.turn_lt {p : Pipeline} {c : State} (h : p.cores[p.turn]? = some c) :
    p.turn < p.cores.length := by
  obtain ⟨hlt, -⟩ := List.getElem?_eq_some_iff.1 h
  exact hlt

/-- Everything an iteration can do once its core was resumed. -/
theorem pipelineIterate_cases {fuel : Nat} {p : Pipeline} {before after : State}
    (hb : p.cores[p.turn]? = some before) (hr : resume fuel before = some after) :
    (after.status = .faulted ∧ pipelineIterate fuel p = some (.ended
      ⟨p.moved after, p.turn, p.finalAfter after, p.idle⟩ (.coreFault p.turn after.faultKind))) ∨
    (after.status ≠ .faulted ∧ (∀ c ∈ p.moved after, c.status = .halted) ∧
      pipelineIterate fuel p = some (.ended
        ⟨p.moved after, p.turn, p.finalAfter after, p.idle⟩ (.signal (p.finalAfter after)))) ∨
    (after.status ≠ .faulted ∧ (¬ ∀ c ∈ p.moved after, c.status = .halted) ∧
      p.idleAfter before after = p.cores.length ∧ pipelineIterate fuel p = some (.ended
        ⟨p.moved after, p.turn, p.finalAfter after, p.idleAfter before after⟩ .deadlock)) ∨
    (after.status ≠ .faulted ∧ (¬ ∀ c ∈ p.moved after, c.status = .halted) ∧
      p.idleAfter before after ≠ p.cores.length ∧ pipelineIterate fuel p = some (.continued
        ⟨p.moved after, (p.turn + 1) % p.cores.length, p.finalAfter after, p.idleAfter before after⟩)) := by
  have hall : ((p.moved after).all fun c => decide (c.status = .halted)) = true ↔
      ∀ c ∈ p.moved after, c.status = .halted := by simp
  have he : pipelineIterate fuel p =
      if after.status = .faulted then
        some (.ended ⟨p.moved after, p.turn, p.finalAfter after, p.idle⟩ (.coreFault p.turn after.faultKind))
      else if (p.moved after).all fun c => decide (c.status = .halted) then
        some (.ended ⟨p.moved after, p.turn, p.finalAfter after, p.idle⟩ (.signal (p.finalAfter after)))
      else if p.idleAfter before after = p.cores.length then
        some (.ended ⟨p.moved after, p.turn, p.finalAfter after, p.idleAfter before after⟩ .deadlock)
      else
        some (.continued ⟨p.moved after, (p.turn + 1) % p.cores.length, p.finalAfter after,
          p.idleAfter before after⟩) := by
    simp only [pipelineIterate, hb, hr]
    rfl
  rw [he]
  by_cases hf : after.status = .faulted
  · exact .inl ⟨hf, if_pos hf⟩
  · refine .inr ?_
    rw [if_neg hf]
    by_cases ha : ∀ c ∈ p.moved after, c.status = .halted
    · exact .inl ⟨hf, ha, if_pos (hall.2 ha)⟩
    · refine .inr ?_
      rw [if_neg (fun h => ha (hall.1 h))]
      by_cases hi : p.idleAfter before after = p.cores.length
      · exact .inl ⟨hf, ha, hi, if_pos hi⟩
      · exact .inr ⟨hf, ha, hi, if_neg hi⟩

/-- An iteration answers only where it resumed a core. -/
theorem pipelineIterate_resumed {fuel : Nat} {p : Pipeline} {x : Iteration}
    (h : pipelineIterate fuel p = some x) :
    ∃ before after, p.cores[p.turn]? = some before ∧ resume fuel before = some after := by
  cases hb : p.cores[p.turn]? with
  | none => simp [pipelineIterate, hb] at h
  | some before =>
    cases hr : resume fuel before with
    | none => simp [pipelineIterate, hb, hr] at h
    | some after => exact ⟨before, after, rfl, hr⟩

/-- Everything a finished loop of the driver can have done. -/
theorem pipelineLoop_cases {fuel rounds : Nat} {p q : Pipeline} {e : PipelineEnd}
    (h : pipelineLoop fuel rounds p = some (q, e)) :
    pipelineIterate fuel p = some (.ended q e) ∨
    ∃ n p', rounds = n + 1 ∧ pipelineIterate fuel p = some (.continued p') ∧
      pipelineLoop fuel n p' = some (q, e) := by
  cases rounds with
  | zero => simp [pipelineLoop] at h
  | succ n =>
    simp only [pipelineLoop] at h
    cases hi : pipelineIterate fuel p with
    | none => simp [hi] at h
    | some x =>
      cases x with
      | ended q' e' =>
        obtain ⟨rfl, rfl⟩ : q' = q ∧ e' = e := by simpa [hi] using h
        exact .inl rfl
      | continued p' => exact .inr ⟨n, p', rfl, rfl, by simpa [hi] using h⟩

end Sys2Proof.Machine
end

