-- ==== Sys2Proof/Laws/PerInstr.lean ====
section
/-! SUPPORT. Statements made of each instruction as syntax, one lemma for each constructor. -/

namespace Sys2Proof.Laws

/-- The shape of an encoding (spec/30_encoding.md R60, R63): one cell for the word, then the raw parameters in slot
order, as many as the opcode has; at most four cells. -/
def EncodingShape.Statement (i : Instr) : Prop :=
  (encode i).length = i.len ∧ (encode i).tail = i.params.map Param.raw ∧
    i.params.length = i.header.op.nparams ∧ i.len ≤ 4

theorem EncodingShape.add (p1 p2 p3 : Param) : EncodingShape.Statement (.add p1 p2 p3) :=
  ⟨rfl, rfl, rfl, Nat.add_le_add_left (Opcode.nparams_le _) 1⟩
theorem EncodingShape.mul (p1 p2 p3 : Param) : EncodingShape.Statement (.mul p1 p2 p3) :=
  ⟨rfl, rfl, rfl, Nat.add_le_add_left (Opcode.nparams_le _) 1⟩
theorem EncodingShape.inp (p1 : Param) (u2 u3 : Mode) : EncodingShape.Statement (.inp p1 u2 u3) :=
  ⟨rfl, rfl, rfl, Nat.add_le_add_left (Opcode.nparams_le _) 1⟩
theorem EncodingShape.out (p1 : Param) (u2 u3 : Mode) : EncodingShape.Statement (.out p1 u2 u3) :=
  ⟨rfl, rfl, rfl, Nat.add_le_add_left (Opcode.nparams_le _) 1⟩
theorem EncodingShape.jt (p1 p2 : Param) (u3 : Mode) : EncodingShape.Statement (.jt p1 p2 u3) :=
  ⟨rfl, rfl, rfl, Nat.add_le_add_left (Opcode.nparams_le _) 1⟩
theorem EncodingShape.jf (p1 p2 : Param) (u3 : Mode) : EncodingShape.Statement (.jf p1 p2 u3) :=
  ⟨rfl, rfl, rfl, Nat.add_le_add_left (Opcode.nparams_le _) 1⟩
theorem EncodingShape.lt (p1 p2 p3 : Param) : EncodingShape.Statement (.lt p1 p2 p3) :=
  ⟨rfl, rfl, rfl, Nat.add_le_add_left (Opcode.nparams_le _) 1⟩
theorem EncodingShape.eq (p1 p2 p3 : Param) : EncodingShape.Statement (.eq p1 p2 p3) :=
  ⟨rfl, rfl, rfl, Nat.add_le_add_left (Opcode.nparams_le _) 1⟩
theorem EncodingShape.arb (p1 : Param) (u2 u3 : Mode) : EncodingShape.Statement (.arb p1 u2 u3) :=
  ⟨rfl, rfl, rfl, Nat.add_le_add_left (Opcode.nparams_le _) 1⟩
theorem EncodingShape.hlt (u1 u2 u3 : Mode) : EncodingShape.Statement (.hlt u1 u2 u3) :=
  ⟨rfl, rfl, rfl, Nat.add_le_add_left (Opcode.nparams_le _) 1⟩

end Sys2Proof.Laws
end

