-- ==== Sys2Proof/Tests/Slice0.lean ====
section
/-! SUPPORT. Tests of the model: each expected value is written out from the spec (its worked decodings and its test
vectors, whose names the comments give), and a witness for each statement that has hypotheses. -/

open Sys2Proof Sys2Proof.Machine

namespace Sys2Proof.Tests

/-- A running core. -/
def small (cells : Memory) (ip rb : Word) (inQ outQ : List Word) : State :=
  ⟨cells, ip, rb, inQ, outQ, .running, none⟩

/-- The same core with another status and fault kind. -/
def ended (s : State) (x : Status) (k : Option FaultKind) : State := (s.setStatus x).setFaultKind k

/-- The next state, if there is one. -/
def stateAfter (o : Host.Outcome State Fault Refusal) : Option State :=
  match o with
  | .next t => some t
  | .fault _ => none
  | .refused _ => none

/-- The state and the reply a host command ends with. -/
def commandAnswer (o : Host.Outcome (State × Reply) Fault Refusal) : Option (State × Reply) :=
  match o with
  | .next r => some r
  | .fault _ => none
  | .refused _ => none

/-- Why a host command was refused. -/
def commandRefusal (o : Host.Outcome (State × Reply) Fault Refusal) : Option Refusal :=
  match o with
  | .next _ => none
  | .fault _ => none
  | .refused r => some r

/-- The decoded instruction, if the cells have one. -/
def decoded (cells : List Word) : Option Instr :=
  match decode cells with
  | .ok (i, _) => some i
  | .error _ => none

/-- The fault the cells raise, if any. -/
def decodeError (cells : List Word) : Option FaultKind :=
  match decode cells with
  | .ok _ => none
  | .error k => some k

abbrev pos (r : Word) : Param := ⟨.position, r⟩
abbrev imm (r : Word) : Param := ⟨.immediate, r⟩
abbrev rel (r : Word) : Param := ⟨.relative, r⟩

/-! ### WellFormed: an ill-formed term for each check (R67) -/

theorem test_wf_refuses_add : (Instr.add (pos 1) (pos 2) (imm 3)).wf = false := by decide
theorem test_wf_refuses_mul : (Instr.mul (pos 1) (pos 2) (imm 3)).wf = false := by decide
theorem test_wf_refuses_inp : (Instr.inp (imm 1) .position .position).wf = false := by decide
theorem test_wf_refuses_lt : (Instr.lt (pos 1) (pos 2) (imm 3)).wf = false := by decide
theorem test_wf_refuses_eq : (Instr.eq (pos 1) (pos 2) (imm 3)).wf = false := by decide
theorem test_wf_accepts_unused_immediate : (Instr.out (imm 1) .immediate .immediate).wf = true := by decide

/-! ### Decoding, word by word from R61, R65 and R66: digits CBAOO, then the raw parameters -/

/-- 2201: OO = 01 ADD, A = 2, B = 2, C = 0. -/
theorem test_decode_add : decoded [2201, 1, 2, 3] = some (.add (rel 1) (rel 2) (pos 3)) := by decide
/-- 1002: OO = 02 MUL, A = 0, B = 1, C = 0 (the source's own example). -/
theorem test_decode_mul : decoded [1002, 4, 3, 4] = some (.mul (pos 4) (imm 3) (pos 4)) := by decide
/-- 203: OO = 03 IN, A = 2. -/
theorem test_decode_inp : decoded [203, 5] = some (.inp (rel 5) .position .position) := by decide
/-- 1104: OO = 04 OUT, A = 1; B = 1 names no parameter (R70). -/
theorem test_decode_out : decoded [1104, 8] = some (.out (imm 8) .immediate .position) := by decide
/-- 2105: OO = 05 JT, A = 1, B = 2. -/
theorem test_decode_jt : decoded [2105, -7, 9] = some (.jt (imm (-7)) (rel 9) .position) := by decide
/-- 1206: OO = 06 JF, A = 2, B = 1. -/
theorem test_decode_jf : decoded [1206, 2, 19] = some (.jf (rel 2) (imm 19) .position) := by decide
/-- 21107: OO = 07 LT, A = 1, B = 1, C = 2. -/
theorem test_decode_lt : decoded [21107, 3, 5, 9] = some (.lt (imm 3) (imm 5) (rel 9)) := by decide
/-- 20008: OO = 08 EQ, A = 0, B = 0, C = 2. -/
theorem test_decode_eq : decoded [20008, 1, 2, 3] = some (.eq (pos 1) (pos 2) (rel 3)) := by decide
/-- 109: OO = 09 ARB, A = 1. -/
theorem test_decode_arb : decoded [109, 19] = some (.arb (imm 19) .position .position) := by decide
/-- 22299: OO = 99 HLT, the largest legal word. -/
theorem test_decode_hlt : decoded [22299] = some (.hlt .relative .relative .relative) := by decide
/-- Reserved encodings do not fall through to a neighbour (R69, section 3.9 of the vectors). -/
theorem test_decode_refuses :
    [10, 398, -99, 30001, 100099, 10008].map (fun w : Word => decodeError [w, 0, 0, 0]) =
      [some .unknownOpcode, some .unknownOpcode, some .unknownOpcode, some .invalidMode, some .invalidMode,
        some .invalidMode] := by decide
/-- The host's numbering: MUL [4], #3, [4] (R72) in four 64-bit cells, the first lowest; nbits beyond the word is 0. -/
theorem test_decode_table_word :
    decodeTableWord 256 (1002 + 4 * 2 ^ 64 + 3 * 2 ^ 128 + 4 * 2 ^ 192) =
      some (.mul (pos 4) (imm 3) (pos 4)) ∧
    decodeTableWord 64 (1002 + 4 * 2 ^ 64) = some (.mul (pos 0) (imm 0) (pos 0)) := by decide
/-- R72: the encoding of ADD [4], #3, [4] is 1001, 4, 3, 4; of OUT [rb-1] it is 204, -1. -/
theorem test_encode :
    encode (.add (pos 4) (imm 3) (pos 4)) = [1001, 4, 3, 4] ∧
    encode (.out (rel (-1)) .position .position) = [204, -1] := by decide

/-! ### One step, from the Step vectors of spec/95_test_vectors.md -/

/-- A3: two relative reads, a position write. -/
theorem test_step_add_relative :
    stateAfter (step (small [(10, 2201), (11, 1), (12, 2), (13, 3), (101, 30), (102, 12)] 10 100 [] [])) =
      some (small [(3, 42), (10, 2201), (11, 1), (12, 2), (13, 3), (101, 30), (102, 12)] 14 100 [] []) := by
  decide
/-- A4: MAX + 1 wraps to MIN. -/
theorem test_step_add_wraps :
    stateAfter (step (small [(0, 1101), (1, 9223372036854775807), (2, 1), (3, 7)] 0 0 [] [])) =
      some (small [(0, 1101), (1, 9223372036854775807), (2, 1), (3, 7), (7, -9223372036854775808)] 4 0 [] []) := by
  decide
/-- M4: the smallest square above 2^63. -/
theorem test_step_mul_wraps :
    stateAfter (step (small [(0, 1102), (1, 3037000500), (2, 3037000500), (3, 7)] 0 0 [] [])) =
      some (small [(0, 1102), (1, 3037000500), (2, 3037000500), (3, 7), (7, -9223372036709301616)] 4 0 [] []) := by
  decide
/-- M9: both sources and the destination are cell 4. -/
theorem test_step_mul_same_cell :
    stateAfter (step (small [(0, 2), (1, 4), (2, 4), (3, 4), (4, -9)] 0 0 [] [])) =
      some (small [(0, 2), (1, 4), (2, 4), (3, 4), (4, 81)] 4 0 [] []) := by decide
/-- I1: pops the head only. -/
theorem test_step_inp_takes_head :
    stateAfter (step (small [(0, 3), (1, 5)] 0 0 [42, 43] [])) =
      some (small [(0, 3), (1, 5), (5, 42)] 2 0 [43] []) := by decide
/-- I6: the fault of the address wins over suspension. -/
theorem test_step_inp_faults_first :
    stateAfter (step (small [(0, 3), (1, -1)] 0 0 [] [])) =
      some (ended (small [(0, 3), (1, -1)] 0 0 [] []) .faulted (some .negativeAddress)) := by decide
/-- O3: relative, reading its own instruction word. -/
theorem test_step_out_relative :
    stateAfter (step (small [(0, 204), (1, -1)] 0 1 [] [])) =
      some (small [(0, 204), (1, -1)] 2 1 [] [204]) := by decide
/-- T9: the exact address sum -2^64 is negative; a wrapping adder would give 0. -/
theorem test_step_out_exact_sum :
    stateAfter (step (small [(0, 204), (1, -9223372036854775808)] 0 (-9223372036854775808) [] [])) =
      some (ended (small [(0, 204), (1, -9223372036854775808)] 0 (-9223372036854775808) [] [])
        .faulted (some .negativeAddress)) := by decide
/-- J9: both parameters relative. -/
theorem test_step_jt_relative :
    stateAfter (step (small [(0, 2205), (1, 1), (2, 2), (11, 5), (12, 30)] 0 10 [] [])) =
      some (small [(0, 2205), (1, 1), (2, 2), (11, 5), (12, 30)] 30 10 [] []) := by decide
/-- J7: not taken, yet parameter 2 is resolved and faults. -/
theorem test_step_jt_resolves_both :
    stateAfter (step (small [(0, 105), (2, -1)] 0 0 [] [])) =
      some (ended (small [(0, 105), (2, -1)] 0 0 [] []) .faulted (some .negativeAddress)) := by decide
/-- J13: condition and target in position mode. -/
theorem test_step_jf_position :
    stateAfter (step (small [(0, 6), (1, 3), (2, 4), (4, 9)] 0 0 [] [])) =
      some (small [(0, 6), (1, 3), (2, 4), (4, 9)] 9 0 [] []) := by decide
/-- J16: not taken, so a negative immediate target is harmless. -/
theorem test_step_jf_not_taken :
    stateAfter (step (small [(0, 1106), (1, 1), (2, -3)] 0 0 [] [])) =
      some (small [(0, 1106), (1, 1), (2, -3)] 3 0 [] []) := by decide
/-- C5: the extremes in the signed order. -/
theorem test_step_lt_extremes :
    stateAfter (step (small [(0, 1107), (1, -9223372036854775808), (2, 9223372036854775807), (3, 9)] 0 0 [] [])) =
      some (small [(0, 1107), (1, -9223372036854775808), (2, 9223372036854775807), (3, 9), (9, 1)] 4 0 [] []) := by
  decide
/-- C7: the destination is also source 1. -/
theorem test_step_lt_same_cell :
    stateAfter (step (small [(0, 7), (1, 4), (2, 5), (3, 4), (4, 2), (5, 3)] 0 0 [] [])) =
      some (small [(0, 7), (1, 4), (2, 5), (3, 4), (4, 1), (5, 3)] 4 0 [] []) := by decide
/-- E6: all three parameters relative. -/
theorem test_step_eq_relative :
    stateAfter (step (small [(0, 22208), (1, 1), (2, 2), (3, 3), (51, 4), (52, 4)] 0 50 [] [])) =
      some (small [(0, 22208), (1, 1), (2, 2), (3, 3), (51, 4), (52, 4), (53, 1)] 4 50 [] []) := by decide
/-- E3: the result overwrites the instruction word. -/
theorem test_step_eq_overwrites_itself :
    stateAfter (step (small [(0, 8)] 0 0 [] [])) = some (small [(0, 1)] 4 0 [] []) := by decide
/-- R4: the operand is resolved with the old rb. -/
theorem test_step_arb_old_rb :
    stateAfter (step (small [(0, 209), (1, 2), (3, 11)] 0 1 [] [])) =
      some (small [(0, 209), (1, 2), (3, 11)] 2 12 [] []) := by decide
/-- R5: wraps at MAX. -/
theorem test_step_arb_wraps :
    stateAfter (step (small [(0, 109), (1, 1)] 0 9223372036854775807 [] [])) =
      some (small [(0, 109), (1, 1)] 2 (-9223372036854775808) [] []) := by decide
/-- H6: in the last cell, with no successor. -/
theorem test_step_hlt_last_cell :
    stateAfter (step (small [(9223372036854775807, 99)] 9223372036854775807 0 [] [])) =
      some (ended (small [(9223372036854775807, 99)] 9223372036854775807 0 [] []) .halted none) := by decide
/-- H4: an unused mode digit 3 is invalid. -/
theorem test_step_hlt_bad_digit :
    stateAfter (step (small [(0, 399)] 0 0 [] [])) =
      some (ended (small [(0, 399)] 0 0 [] []) .faulted (some .invalidMode)) := by decide
/-- T1: nothing is written when the successor does not exist. -/
theorem test_step_no_successor :
    let s := small [(9223372036854775804, 1101), (9223372036854775805, 1), (9223372036854775806, 2)]
      9223372036854775804 0 [] []
    stateAfter (step s) = some (ended s .faulted (some .negativeAddress)) := by decide

/-- The host's placing: the very next step from the reset state runs the word (R145 on 99). -/
theorem test_step_placed_word :
    (stateAfter (step (State.reset.withFetchWord 64 99))).map (fun t => (t.status, t.ip, t.mem)) =
      some (.halted, 0, [(0, 99)]) := by decide

/-! ### Host commands and the pipeline driver -/

/-- H2r, its first Resume: suspended at the IN. -/
theorem test_resume_suspends :
    commandAnswer (hostCommand 4 .resume (State.load [3, 0, 99])) =
      some ((State.load [3, 0, 99]).setStatus .awaitingInput, .status .awaitingInput) := by decide
/-- H3r after its PushInput(0): the second output follows the suspension. -/
theorem test_resume_goes_on :
    (commandAnswer (hostCommand 4 .resume
      ⟨[(0, 104), (1, 1), (2, 104), (3, 2), (4, 3), (5, 9), (6, 104), (7, 3), (8, 99)], 4, 0, [0], [],
        .awaitingInput, none⟩)).map (fun r => (r.1.outQ, r.1.ip, r.2)) = some ([3], 8, .status .halted) := by
  decide
/-- MM4: a cell written with 0 is the cell never written. -/
theorem test_write_zero : Memory.write (Memory.write [] 3 7) 3 0 = [] := by decide
/-- PL5 with N = 2: no core emits, so there is no final signal. -/
theorem test_pipeline_no_signal :
    (pipelineLoop 4 4 (pipelineSetUp [3, 5, 99] [1, 2] 0)).map (fun r => (r.2, r.1.cores.map State.inQ)) =
      some (.signal none, [[0], []]) := by decide
/-- PL2 with N = 2: a deadlock after two idle iterations. -/
theorem test_pipeline_deadlock :
    (pipelineLoop 6 5 (pipelineSetUp [3, 10, 3, 10, 3, 10, 99] [1, 2] 0)).map (fun r => r.2) =
      some .deadlock := by decide

/-! ### Witnesses: what meets the hypotheses of each statement, clause by clause -/

abbrev top : Word := 9223372036854775807
abbrev bottom : Word := -9223372036854775808

/-- The invariant of a running core comes down to its `ip` and its memory. -/
theorem small_inv (cells : Memory) (ip rb : Word) (inQ outQ : List Word) (h0 : 0 ≤ ip.toInt)
    (hm : cells.wf) : Inv (small cells ip rb inQ outQ) :=
  ⟨h0, by simp [small], by simp [small], by simp [small], hm⟩

theorem witness_ResetGivesResetState :
    State.reset.status ≠ .running ∧ ([1, 0, 99] : List Word).length ≤ Config.maxImageLength := by decide
theorem witness_InvariantHoldsAfterReset :
    ([99] : List Word).length ≤ Config.maxImageLength := by decide
/-- A step that stores, one that suspends and one that halts. -/
theorem witness_StepKeepsInvariant :
    (Inv (small [(0, 8)] 0 0 [] []) ∧ step (small [(0, 8)] 0 0 [] []) = .next (small [(0, 1)] 4 0 [] [])) ∧
    (Inv (small [(0, 3)] 0 0 [] []) ∧
      step (small [(0, 3)] 0 0 [] []) = .next ((small [(0, 3)] 0 0 [] []).setStatus .awaitingInput)) ∧
    (Inv (small [(0, 99)] 0 0 [] []) ∧
      step (small [(0, 99)] 0 0 [] []) = .next ((small [(0, 99)] 0 0 [] []).setStatus .halted)) :=
  ⟨⟨small_inv _ _ _ _ _ (by decide) (by decide), rfl⟩, ⟨small_inv _ _ _ _ _ (by decide) (by decide), rfl⟩,
    ⟨small_inv _ _ _ _ _ (by decide) (by decide), rfl⟩⟩

/-- A reachable core suspended at an IN, and one halted. -/
theorem witness_ReachableStatesAreConsistent :
    (Reachable ((State.load [3]).setStatus .awaitingInput) ∧
      ((State.load [3]).setStatus .awaitingInput).status = .awaitingInput) ∧
    (Reachable ((State.load [99]).setStatus .halted) ∧ ((State.load [99]).setStatus .halted).status = .halted) :=
  ⟨⟨.command 1 .resume (State.load [3]) _ (.status .awaitingInput) (.reset [3] (by decide)) rfl, rfl⟩,
    ⟨.command 1 .resume (State.load [99]) _ (.status .halted) (.reset [99] (by decide)) rfl, rfl⟩⟩

/-- A core that meets the invariant and a command that answers, from Ready and from AwaitingInput. -/
theorem witness_HostCommandKeepsInvariant :
    (Inv (State.load [3]) ∧ hostCommand 1 .resume (State.load [3]) =
      .next ((State.load [3]).setStatus .awaitingInput, .status .awaitingInput)) ∧
    (Inv ((State.load [3]).setStatus .awaitingInput) ∧
      hostCommand 0 (.pushInput 5) ((State.load [3]).setStatus .awaitingInput) =
        .next (((State.load [3]).setStatus .awaitingInput).setInQ [5], .done)) :=
  ⟨⟨⟨by decide, by decide, (fun h => nomatch h), (fun h => nomatch h), by decide⟩, rfl⟩,
    ⟨⟨by decide, by decide, fun _ => ⟨⟨.position, 0⟩, .position, .position, rfl, by decide, by decide⟩,
      (fun h => nomatch h), by decide⟩, rfl⟩⟩

/-- An instruction that decodes in the last cell, and a word there that does not. -/
theorem witness_StepRunsDecodedInstruction :
    ((small [(9223372036854775807, 99)] top 0 [] []).status = .running ∧
      0 ≤ (small [(9223372036854775807, 99)] top 0 [] []).ip.toInt ∧
      decode (cellsFrom (small [(9223372036854775807, 99)] top 0 [] []) 9223372036854775807) =
        .ok (.hlt .position .position .position, [])) ∧
    ((small [(9223372036854775807, 104)] top 0 [] []).status = .running ∧
      0 ≤ (small [(9223372036854775807, 104)] top 0 [] []).ip.toInt ∧
      decode (cellsFrom (small [(9223372036854775807, 104)] top 0 [] []) 9223372036854775807) =
        .error .negativeAddress) :=
  ⟨⟨rfl, by decide, rfl⟩, ⟨rfl, by decide, rfl⟩⟩

/-- ADD in the last four cells: room for its cells, none for its successor. -/
theorem witness_EncodedInstructionIsRun :
    let s := small [(9223372036854775804, 1101), (9223372036854775805, 1), (9223372036854775806, 2)]
      9223372036854775804 0 [] []
    let i := Instr.add (imm 1) (imm 2) (pos 0)
    s.status = .running ∧ 0 ≤ s.ip.toInt ∧ i.wf = true ∧ ipRoom s (i.len - 1) ∧
      ∀ k, k < i.len → (encode i)[k]? = some (s.cell (s.ip.toInt.toNat + k)) := by decide
theorem witness_PlacedInstructionIsRun :
    let s := small [] 9223372036854775804 0 [] []
    0 ≤ s.ip.toInt ∧ ipRoom s 3 ∧ s.mem.wf ∧
      decodeTableWord 64 99 = some (.hlt .position .position .position) := by decide
theorem witness_StepIsIdleUnlessRunning : State.reset.status ≠ .running := by decide
theorem witness_DecodeOfEncode : (Instr.inp (rel (-5)) .immediate .relative).wf = true := by decide
theorem witness_EncodeOfDecode :
    decode [11203, -5, 7] = .ok (.inp (rel (-5)) .immediate .immediate, [7]) := rfl
theorem witness_InstructionWordRoundTrip :
    decodeWord 22299 = .ok ⟨.hlt, .relative, .relative, .relative⟩ := rfl
/-- One word for each test of `Decode`. -/
theorem witness_DecodeTestsInOrder :
    (-1 : Word).toInt < 0 ∧
    (0 ≤ (0 : Word).toInt ∧ (0 : Word).toInt % 100 ∉ [1, 2, 3, 4, 5, 6, 7, 8, 9, 99]) ∧
    (0 ≤ (399 : Word).toInt ∧ (399 : Word).toInt % 100 ∈ [1, 2, 3, 4, 5, 6, 7, 8, 9, 99] ∧
      2 < (399 : Word).toInt / 100 % 10) ∧
    (0 ≤ (100001 : Word).toInt ∧ (100001 : Word).toInt % 100 ∈ [1, 2, 3, 4, 5, 6, 7, 8, 9, 99] ∧
      ¬ (2 < (100001 : Word).toInt / 100 % 10 ∨ 2 < (100001 : Word).toInt / 1000 % 10 ∨
        2 < (100001 : Word).toInt / 10000 % 10) ∧ (100001 : Word).toInt / 100000 ≠ 0) ∧
    (0 ≤ (22299 : Word).toInt ∧ (22299 : Word).toInt % 100 ∈ [1, 2, 3, 4, 5, 6, 7, 8, 9, 99] ∧
      ¬ (2 < (22299 : Word).toInt / 100 % 10 ∨ 2 < (22299 : Word).toInt / 1000 % 10 ∨
        2 < (22299 : Word).toInt / 10000 % 10) ∧ (22299 : Word).toInt / 100000 = 0) := by decide
theorem witness_ImmediateWriteIsInvalid :
    decodeWord 10001 = .ok ⟨.add, .position, .position, .immediate⟩ ∧
      decodeWord 103 = .ok ⟨.inp, .immediate, .position, .position⟩ := ⟨rfl, rfl⟩
theorem witness_MemoryIsTotalFunction :
    ∀ p ∈ ([(0, 1), (9223372036854775807, 5), (0, 0)] : List (Nat × Word)), isAddr (p.1 : Int) := by decide
theorem witness_MemoryPrimitiveLaws :
    Memory.wf [(3, 7)] ∧ (-1 : Int) < 0 ∧ isAddr 0 ∧ isAddr 9223372036854775807 ∧
      ∀ c ∈ ([(3, 7)] : Memory), c.1 ≠ (9223372036854775807 : Int).toNat := by decide
theorem witness_CanonicalMemoriesAreEqual :
    Memory.wf [(3, 7)] ∧ Memory.wf (Memory.write (Memory.write [(3, 7)] 4 1) 4 0) ∧
      ∀ a, Memory.read [(3, 7)] a = (Memory.write (Memory.write [(3, 7)] 4 1) 4 0).read a :=
  ⟨by decide, by decide, fun _ => rfl⟩
/-- Addresses at both ends, and sums one outside each end. -/
theorem witness_ReadOperandByMode :
    let s := small [] 0 1 [] []
    isAddr (0 : Word).toInt ∧ isAddr top.toInt ∧ ¬ isAddr (-1 : Word).toInt ∧
      isAddr ((-1 : Word).toInt + s.rb.toInt) ∧ ¬ isAddr (top.toInt + s.rb.toInt) ∧
      ¬ isAddr ((-2 : Word).toInt + s.rb.toInt) := by decide
theorem witness_WriteAddrByMode :
    let s := small [] 0 1 [] []
    isAddr (0 : Word).toInt ∧ isAddr top.toInt ∧ ¬ isAddr (-1 : Word).toInt ∧
      isAddr ((-1 : Word).toInt + s.rb.toInt) ∧ ¬ isAddr (top.toInt + s.rb.toInt) ∧
      ¬ isAddr ((-2 : Word).toInt + s.rb.toInt) := by decide
/-- A sum at each bound, one above and one below. -/
theorem witness_AdditionWraps :
    (top.toInt + (0 : Word).toInt = Config.wordMax ∧ bottom.toInt + (0 : Word).toInt = Config.wordMin) ∧
    Config.wordMax < top.toInt + (1 : Word).toInt ∧ bottom.toInt + (-1 : Word).toInt < Config.wordMin := by decide
theorem witness_MultiplicationKeepsLowBits : top.toInt ≠ Config.wordMin := by decide
theorem witness_LessThanIsSigned :
    bottom.toInt < top.toInt ∧ ¬ (5 : Word).toInt < (5 : Word).toInt := by decide
theorem witness_EqualityAndZeroTest : (8 : Word) = 8 ∧ (8 : Word) ≠ -8 := by decide

/-- Parameters that resolve at the last address and the last successor; none for the successor; an immediate write. -/
theorem witness_StoringInstructionsComplete :
    let s := small [] 9223372036854775803 0 [] []
    let t := small [] 9223372036854775804 0 [] []
    (canRead s (pos top) ∧ canRead s (rel 0) ∧ canWrite s (pos top) ∧ ipRoom s 4) ∧
    ((pos 0).mode ≠ .immediate ∧
      ¬ (canRead t (imm 1) ∧ canRead t (imm 2) ∧ canWrite t (pos 0) ∧ ipRoom t 4)) ∧
    (imm 0).mode = .immediate := by decide
theorem witness_InCompletesOrSuspends :
    let s := small [] 9223372036854775805 0 [1, 2] []
    let e := small [] 9223372036854775805 0 [] []
    let t := small [] 9223372036854775806 0 [1] []
    (s.inQ = 1 :: [2] ∧ canWrite s (pos top) ∧ ipRoom s 2) ∧
    (e.inQ = [] ∧ canWrite e (pos 0) ∧ ipRoom e 2) ∧
    ((pos 0).mode ≠ .immediate ∧ ¬ (canWrite t (pos 0) ∧ ipRoom t 2)) ∧ (imm 0).mode = .immediate := by decide
theorem witness_OutAndArbComplete :
    let s := small [] 9223372036854775805 0 [] []
    (canRead s (pos top) ∧ ipRoom s 2) ∧ ¬ (canRead s (pos (-1)) ∧ ipRoom s 2) := by decide
/-- For JT and for JF: taken with target 0 and -1, not taken with and without a successor, an operand that does not
resolve. -/
theorem witness_JumpsComplete :
    let s := small [] 9223372036854775804 0 [] []
    let t := small [] 9223372036854775805 0 [] []
    (ipRoom s 2 ∧ canRead s (imm 1) ∧ canRead s (imm 0) ∧ canRead s (imm (-1)) ∧ ipRoom s 3) ∧
    (ipRoom t 2 ∧ canRead t (imm 1) ∧ canRead t (imm 0) ∧ ¬ ipRoom t 3) ∧
    valueOf s (imm 1) ≠ 0 ∧ valueOf s (imm 0) = 0 ∧ 0 ≤ (valueOf s (imm 0)).toInt ∧
    (valueOf s (imm (-1))).toInt < 0 ∧ ¬ (ipRoom s 2 ∧ canRead s (imm 0) ∧ canRead s (pos (-1))) := by decide

/-- For each storing opcode: its word resolving, resolving not, and with each digit fault. -/
theorem witness_StepOfStoring :
    ∀ op ∈ ([1, 2, 7, 8] : List Word),
      let good := small [(0, 1100 + op), (1, 3), (2, 4), (3, top)] 0 0 [] []
      let bad := small [(0, 1100 + op), (1, 3), (2, 4), (3, -1)] 0 0 [] []
      let digits := small [(0, 100300 + op)] 0 0 [] []
      let imm3 := small [(0, 10000 + op)] 0 0 [] []
      (executing good op.toInt ∧ digitsLegal good ∧ modeDigit good 3 ≠ 1 ∧ ipRoom good 4 ∧
        paramReadable good 1 ∧ paramReadable good 2 ∧ isAddr (paramAddr good 3)) ∧
      (executing bad op.toInt ∧ digitsLegal bad ∧ modeDigit bad 3 ≠ 1 ∧ ¬ isAddr (paramAddr bad 3)) ∧
      (executing digits op.toInt ∧ ¬ digitsLegal digits) ∧
      (executing imm3 op.toInt ∧ digitsLegal imm3 ∧ modeDigit imm3 3 = 1) := by
  intro x hx
  fin_cases hx <;> refine ⟨?_, ?_, ?_, ?_⟩ <;> decide
theorem witness_StepOfAdd : executing (small [(0, 22201)] 0 0 [] []) 1 := by decide
theorem witness_StepOfMul : executing (small [(0, 22202)] 0 0 [] []) 2 := by decide
theorem witness_StepOfLt : executing (small [(0, 22207)] 0 0 [] []) 7 := by decide
theorem witness_StepOfEq : executing (small [(0, 22208)] 0 0 [] []) 8 := by decide
theorem witness_StepOfIn :
    let take := small [(0, 203), (1, -1)] 0 1 [5] []
    let wait := small [(0, 3), (1, top)] 0 0 [] []
    let bad := small [(0, 3), (1, -1)] 0 0 [] []
    let digits := small [(0, 303)] 0 0 [] []
    let imm1 := small [(0, 103)] 0 0 [] []
    (executing take 3 ∧ digitsLegal take ∧ modeDigit take 1 ≠ 1 ∧ ipRoom take 2 ∧ isAddr (paramAddr take 1) ∧
      take.inQ = 5 :: []) ∧
    (executing wait 3 ∧ digitsLegal wait ∧ modeDigit wait 1 ≠ 1 ∧ ipRoom wait 2 ∧ isAddr (paramAddr wait 1) ∧
      wait.inQ = []) ∧
    (executing bad 3 ∧ digitsLegal bad ∧ modeDigit bad 1 ≠ 1 ∧ ¬ isAddr (paramAddr bad 1)) ∧
    (executing digits 3 ∧ ¬ digitsLegal digits) ∧ (executing imm1 3 ∧ modeDigit imm1 1 = 1) := by decide
/-- For OUT and for ARB: resolving at both ends of the address space, not resolving, and a digit fault. -/
theorem witness_StepOfOutAndArb :
    ∀ op ∈ ([4, 9] : List Word),
      let low := small [(0, 200 + op), (1, -1)] 0 1 [] []
      let high := small [(0, op), (1, top)] 0 0 [] []
      let bad := small [(0, 200 + op), (1, top)] 0 1 [] []
      let digits := small [(0, 300 + op)] 0 0 [] []
      (executing low op.toInt ∧ digitsLegal low ∧ ipRoom low 2 ∧ paramReadable low 1) ∧
      (executing high op.toInt ∧ digitsLegal high ∧ ipRoom high 2 ∧ paramReadable high 1) ∧
      (executing bad op.toInt ∧ digitsLegal bad ∧ ¬ paramReadable bad 1) ∧
      (executing digits op.toInt ∧ ¬ digitsLegal digits) := by
  intro x hx
  fin_cases hx <;> refine ⟨?_, ?_, ?_, ?_⟩ <;> decide
theorem witness_StepOfOut : executing (small [(0, 22204)] 0 0 [] []) 4 := by decide
theorem witness_StepOfArb : executing (small [(0, 22209)] 0 0 [] []) 9 := by decide
/-- For JT (condition 1 taken) and JF (condition 0 taken): taken with targets 0 and -1, not taken with and without a
successor, an operand that does not resolve, a digit fault. -/
theorem witness_StepOfJumps :
    ∀ p ∈ ([(5, 1, 0), (6, 0, 1)] : List (Word × Word × Word)),
      let op := p.1
      let yes := small [(0, 1100 + op), (1, p.2.1)] 0 0 [] []
      let yesNeg := small [(0, 1100 + op), (1, p.2.1), (2, -1)] 0 0 [] []
      let no := small [(0, 1100 + op), (1, p.2.2)] 0 0 [] []
      let noEnd := small [(9223372036854775805, 1100 + op), (9223372036854775806, p.2.2)] 9223372036854775805 0 [] []
      let bad := small [(0, 100 + op), (1, p.2.1), (2, -1)] 0 0 [] []
      let digits := small [(0, 300 + op)] 0 0 [] []
      (executing yes op.toInt ∧ digitsLegal yes ∧ ipRoom yes 2 ∧ paramReadable yes 1 ∧ paramReadable yes 2 ∧
        paramValue yes 1 = p.2.1 ∧ 0 ≤ (paramValue yes 2).toInt) ∧
      (executing yesNeg op.toInt ∧ digitsLegal yesNeg ∧ ipRoom yesNeg 2 ∧ paramReadable yesNeg 1 ∧
        paramReadable yesNeg 2 ∧ paramValue yesNeg 1 = p.2.1 ∧ (paramValue yesNeg 2).toInt < 0) ∧
      (executing no op.toInt ∧ digitsLegal no ∧ paramReadable no 1 ∧ paramReadable no 2 ∧
        paramValue no 1 = p.2.2 ∧ ipRoom no 3) ∧
      (executing noEnd op.toInt ∧ digitsLegal noEnd ∧ ipRoom noEnd 2 ∧ paramReadable noEnd 1 ∧
        paramReadable noEnd 2 ∧ paramValue noEnd 1 = p.2.2 ∧ ¬ ipRoom noEnd 3) ∧
      (executing bad op.toInt ∧ digitsLegal bad ∧ ¬ paramReadable bad 2) ∧
      (executing digits op.toInt ∧ ¬ digitsLegal digits) := by
  intro x hx
  fin_cases hx <;> refine ⟨?_, ?_, ?_, ?_, ?_, ?_⟩ <;> decide
theorem witness_StepOfJt : executing (small [(0, 22205)] 0 0 [] []) 5 := by decide
theorem witness_StepOfJf : executing (small [(0, 22206)] 0 0 [] []) 6 := by decide
theorem witness_StepOfHlt :
    let s := small [(9223372036854775807, 22299)] top 0 [] []
    let digits := small [(0, 399)] 0 0 [] []
    (executing s 99 ∧ digitsLegal s) ∧ (executing digits 99 ∧ ¬ digitsLegal digits) := by decide

/-- A store and a fault of each shape that stores, and the input it takes. -/
theorem witness_StoringInstructionsFrame :
    let s := small [] 0 0 [5] []
    (∀ i ∈ [Instr.add (imm 1) (imm 2) (pos 9), .mul (imm 1) (imm 2) (pos 9), .lt (imm 1) (imm 2) (pos 9),
      .eq (imm 1) (imm 2) (pos 9)], ∃ t, exec i s = .next t) ∧
    writeAddr s (pos 9) = .ok 9 ∧ writeAddr s (pos (-1)) = .error .negativeAddress ∧
    exec (.inp (pos 9) .position .position) s = .next (small [(9, 5)] 2 0 [] []) :=
  ⟨by intro i hi; fin_cases hi <;> exact ⟨_, rfl⟩, rfl, rfl, rfl⟩
theorem witness_NonStoringInstructionsFrame :
    let s := small [] 0 0 [] []
    exec (.out (imm 5) .position .position) s = .next (small [] 2 0 [] [5]) ∧
    exec (.arb (imm 5) .position .position) s = .next (small [] 2 5 [] []) ∧
    exec (.jt (imm 1) (imm 40) .position) s = .next (small [] 40 0 [] []) ∧
    exec (.jf (imm 0) (imm 40) .position) s = .next (small [] 40 0 [] []) ∧
    exec (.hlt .position .position .position) s = .next (s.setStatus .halted) := ⟨rfl, rfl, rfl, rfl, rfl⟩
theorem witness_FaultChangesNothingElse :
    let s := small [(0, 1101), (1, 1), (2, 1), (3, -5)] 0 0 [1] [2]
    s.status = .running ∧ step s = .next (raise .negativeAddress s) ∧
      (raise .negativeAddress s).status = .faulted := ⟨rfl, rfl, rfl⟩
theorem witness_StepIsTotal : (small [] top 0 [] []).status = .running := by decide
/-- A step that writes memory and takes an input, one that appends an output, one that writes rb, and one that fetches no
instruction. -/
theorem witness_StepWritesAtMostOnce :
    (step (small [(0, 3), (1, 9)] 0 0 [5] []) = .next (small [(0, 3), (1, 9), (9, 5)] 2 0 [] []) ∧
      fetch (small [(0, 3), (1, 9)] 0 0 [5] []) = .ok (.inp (pos 9) .position .position) ∧
      writeParam (.inp (pos 9) .position .position) = some (pos 9) ∧
      writeAddr (small [(0, 3), (1, 9)] 0 0 [5] []) (pos 9) = .ok 9) ∧
    (step (small [(0, 104), (1, 9)] 0 0 [5] []) = .next (small [(0, 104), (1, 9)] 2 0 [5] [9]) ∧
      writeParam (.out (imm 9) .position .position) = none) ∧
    step (small [(0, 109), (1, 9)] 0 0 [5] []) = .next (small [(0, 109), (1, 9)] 2 9 [5] []) ∧
    fetch (small [] 0 0 [] []) = .error .unknownOpcode :=
  ⟨⟨rfl, rfl, rfl, rfl⟩, ⟨rfl, rfl⟩, rfl, rfl⟩
/-- The largest successor, a taken jump to 0, an instruction that keeps ip, and a step for the loop. -/
theorem witness_OnlyJumpsLeaveTheSequence :
    0 ≤ (small [] 9223372036854775805 0 [] []).ip.toInt ∧
    exec (.out (imm 5) .position .position) (small [] 9223372036854775805 0 [] []) =
      .next (small [] top 0 [] [5]) ∧
    exec (.jf (imm 0) (imm 0) .position) (small [] 9 0 [] []) = .next (small [] 0 0 [] []) ∧
    exec (.inp (pos 5) .position .position) (small [] 0 0 [] []) =
      .next ((small [] 0 0 [] []).setStatus .awaitingInput) ∧
    (small [(0, 8)] 0 0 [] []).status = .running ∧
      step (small [(0, 8)] 0 0 [] []) = .next (small [(0, 1)] 4 0 [] []) :=
  ⟨by decide, rfl, rfl, rfl, rfl, rfl⟩
theorem witness_RelativeBaseReachesOnlyRelativeParameters :
    (∀ p ∈ (Instr.add (imm 1) (pos 0) (pos 9)).params, p.mode ≠ .relative) ∧
    (¬ ∃ p1 u2 u3, Instr.add (imm 1) (pos 0) (pos 9) = .arb p1 u2 u3) ∧
    exec (.add (imm 1) (pos 0) (pos 9)) (small [] 0 7 [] []) = .next (small [(9, 1)] 4 7 [] []) ∧
    (small [(0, 109), (1, 5)] 0 0 [] []).status = .running ∧
    step (small [(0, 109), (1, 5)] 0 0 [] []) = .next (small [(0, 109), (1, 5)] 2 5 [] []) ∧
    (small [] 0 0 [] []).rb = 0 := ⟨by decide, by simp, rfl, rfl, rfl, rfl⟩
/-- Two ARBs whose sum wraps on the way and comes back. -/
theorem witness_ArbDeltasAddUp :
    let run : Nat → State := fun k =>
      if k = 0 then small [] 0 top [] [] else if k = 1 then small [] 2 bottom [] [] else small [] 4 top [] []
    let p : Nat → Param := fun k => if k = 0 then imm 1 else imm (-1)
    ∀ k, k < 2 → canRead (run k) (p k) ∧ ipRoom (run k) 2 ∧
      exec (.arb (p k) .position .position) (run k) = .next (run (k + 1)) := by
  intro run p k hk
  match k, hk with
  | 0, _ => exact ⟨by decide, by decide, rfl⟩
  | 1, _ => exact ⟨by decide, by decide, rfl⟩
theorem witness_TerminalStatusesLast :
    let s := raise .unknownOpcode State.reset
    (s.status = .faulted ∧ ∀ program, Command.pushInput 5 ≠ .reset program) ∧
      hostCommand 0 (.pushInput 5) s = .next (s.setInQ [5], .done) ∧
      (State.reset.setStatus .halted).status = .halted := ⟨⟨rfl, by simp⟩, rfl, rfl⟩
theorem witness_QueueCommandsAndPeek :
    State.reset.status ≠ .running ∧ isAddr 0 ∧ isAddr 9223372036854775807 ∧ ¬ isAddr (-1) ∧
      ¬ isAddr 9223372036854775808 := by decide
/-- A Resume that returns from Ready, one from AwaitingInput, one on a Halted core. -/
theorem witness_ResumeReturnsOutsideRunning :
    hostCommand 1 .resume (State.load [3]) =
      .next ((State.load [3]).setStatus .awaitingInput, .status .awaitingInput) ∧
    hostCommand 1 .resume ((State.load [99]).setStatus .awaitingInput) =
      .next ((State.load [99]).setStatus .halted, .status .halted) ∧
    hostCommand 0 .resume ((State.load [99]).setStatus .halted) =
      .next ((State.load [99]).setStatus .halted, .status .halted) := ⟨rfl, rfl, rfl⟩
theorem witness_ResumeWithoutInputChangesNothing :
    let s := (State.load [3]).setStatus .awaitingInput
    Inv s ∧ s.status = .awaitingInput ∧ s.inQ = [] ∧ 0 < 1 :=
  ⟨witness_HostCommandKeepsInvariant.2.1, rfl, rfl, Nat.one_pos⟩
/-- A core that emits 7, suspends, takes 5, and halts. -/
theorem witness_SplittingARunChangesNothing :
    let s := State.load [104, 7, 3, 9, 99]
    let t := ((s.setIp 2).setOutQ [7]).setStatus .awaitingInput
    s.status = .ready ∧ resume 2 s = some t ∧ t.status = .awaitingInput ∧
      (resume 2 (t.drained.setInQ (t.inQ ++ [5]))).map State.status = some .halted := ⟨rfl, rfl, rfl, rfl⟩
theorem witness_NoCommandWhileRunning :
    (small [] 0 0 [] []).status = .running ∧
      hostCommand 0 (.pushInput 5) State.reset = .next (State.reset.setInQ [5], .done) := ⟨rfl, rfl⟩
/-- The first and the last of two cores, and the only one of one. -/
theorem witness_PipelineSetUpQueues :
    0 < ([1, 2] : List Word).length ∧ 1 < ([1, 2] : List Word).length ∧ 0 < ([1] : List Word).length := by decide
/-- One core that hands its output to itself; two cores, the last of which hands to the first; and an iteration after
which the loop goes on, idle (a suspended core without input) or not (a core first resumed). -/
theorem witness_PipelineMovesOutputsInOrder :
    let s := State.load [104, 7, 99]
    let t := ((s.setIp 2).setOutQ [7]).setStatus .halted
    let r := State.load [3]
    let w := r.setStatus .awaitingInput
    (resume 2 s = some t ∧
      (⟨[s], 0, none, 0⟩ : Pipeline).cores[0]? = some s ∧ (⟨[s], 0, none, 0⟩ : Pipeline).cores.length = 1 ∧
      (⟨[t, s], 1, none, 0⟩ : Pipeline).cores[1]? = some s ∧ 1 < (⟨[t, s], 1, none, 0⟩ : Pipeline).cores.length) ∧
    (resume 1 w = some w ∧ w.outQ = [] ∧
      pipelineIterate 1 ⟨[w, w], 0, none, 0⟩ = some (.continued ⟨[w, w], 1, none, 1⟩)) ∧
    (resume 1 r = some w ∧ w.status ≠ r.status ∧
      pipelineIterate 1 ⟨[r, w], 0, none, 1⟩ = some (.continued ⟨[w, w], 1, none, 0⟩)) := by
  refine ⟨⟨rfl, rfl, rfl, rfl, by decide⟩, ⟨rfl, rfl, rfl⟩, rfl, by decide, rfl⟩
/-- A run that ends in a signal, one in a fault, one in a deadlock, and a deadlock at the first iteration. -/
theorem witness_PipelineEndsForItsReasons :
    (pipelineLoop 4 4 (pipelineSetUp [3, 5, 99] [1, 2] 0)).map Prod.snd = some (.signal none) ∧
    (pipelineLoop 4 4 (pipelineSetUp [98] [1, 2] 0)).map Prod.snd =
      some (.coreFault 0 (some .unknownOpcode)) ∧
    (pipelineLoop 4 4 (pipelineSetUp [3, 10, 3, 10, 3, 10, 99] [1, 2] 0)).map Prod.snd = some .deadlock ∧
    (pipelineLoop 4 1 ⟨[(State.load [3]).setStatus .awaitingInput], 0, none, 0⟩).map Prod.snd = some .deadlock := by
  decide
/-- For each exit a core that takes it: faulting, halting alone, suspended with N - 1 and with fewer idle iterations before,
halting beside a core that is not Halted. -/
theorem witness_PipelineIterationExits :
    let w := (State.load [3]).setStatus .awaitingInput
    (resume 1 (State.load [98])).map State.status = some .faulted ∧
    (resume 1 (State.load [99])).map State.status = some .halted ∧ resume 1 w = some w ∧
    pipelineIterate 1 ⟨[State.load [99]], 0, none, 0⟩ =
      some (.ended ⟨[(State.load [99]).setStatus .halted], 0, none, 0⟩ (.signal none)) ∧
    pipelineIterate 1 ⟨[w, w], 1, none, 1⟩ = some (.ended ⟨[w, w], 1, none, 2⟩ .deadlock) ∧
    pipelineIterate 1 ⟨[w, w], 1, none, 0⟩ = some (.continued ⟨[w, w], 0, none, 1⟩) ∧
    pipelineIterate 1 ⟨[State.load [99], w], 0, none, 1⟩ =
      some (.continued ⟨[(State.load [99]).setStatus .halted, w], 1, none, 0⟩) := ⟨rfl, rfl, rfl, rfl, rfl, rfl, rfl⟩

end Sys2Proof.Tests
end

section
/-! The laws of `wrapW` (spec/00_scope.md R7), through which the adders and the multiplier are reasoned about, and the
obligation that states the rule. -/

namespace Sys2Proof.Machine

/-- R7's formula. The library's balanced remainder is shifted by half the modulus, so that it falls into 0..2^64-1. -/
theorem wrapW_toInt (z : Int) : (wrapW z).toInt = (z + 2 ^ 63) % 2 ^ 64 - 2 ^ 63 := by
  have hbmod : (wrapW z).toInt = z.bmod (2 ^ 64) := BitVec.toInt_ofInt z
  rw [hbmod, Int.bmod_def]
  split <;> omega

/-- Wrapping leaves a Word as it is. -/
@[simp] theorem wrapW_of_toInt (v : Word) : wrapW v.toInt = v := BitVec.ofInt_toInt

/-- A Word is `wrapW z` exactly when it is congruent to `z`: both lie in one range of 2^64 integers. -/
theorem eq_wrapW_iff (z : Int) (v : Word) : v = wrapW z ↔ (v.toInt - z) % 2 ^ 64 = 0 := by
  have hlow : -2 ^ 63 ≤ v.toInt := BitVec.le_toInt v
  have hhigh : v.toInt < 2 ^ 63 := BitVec.toInt_lt
  rw [← BitVec.toInt_inj, wrapW_toInt]
  omega

/-- Settles O23: the formula, the unique congruent Word, and the identity on Words, each a law of `wrapW`. -/
theorem wrapIsTheCongruentWord : Obligations.WrapIsTheCongruentWord :=
  ⟨wrapW_toInt, fun z v => (eq_wrapW_iff z v).symm, wrapW_of_toInt⟩

end Sys2Proof.Machine
end

section
/-! The `Reset` command (spec/10_state.md R31): what it answers, what a loaded core reads in each cell, and the
obligation that states the reset value of every component. -/

namespace Sys2Proof.Machine

/-- Outside Running a host command is the command's own transaction. -/
theorem hostCommand_of_not_running (fuel : Nat) (c : Command) {s : State} (h : s.status ≠ .running) :
    hostCommand fuel c s = runCommand fuel s c := if_neg h

/-- `Reset` of an image that fits loads it, whatever the core held. -/
theorem runCommand_reset (fuel : Nat) (s : State) {program : List Word}
    (h : program.length ≤ Config.maxImageLength) :
    runCommand fuel s (.reset program) = .next (State.load program, .done) := if_pos h

/-- A loaded core holds the image from address 0 upward, and 0 above it. -/
theorem State.load_cell (program : List Word) (k : Nat) :
    (State.load program).cell k = program.getD k 0 := by
  have hread := Memory.ofImage_read 0 program k
  rwa [Nat.zero_add] at hread

/-- Settles O1: the answer is the loaded core, whose registers are constants and whose cells are the image's. -/
theorem resetGivesResetState : Obligations.ResetGivesResetState := by
  intro fuel program s hstatus hfits
  refine ⟨State.load program, ?_, State.load_ip program, State.load_rb program, State.load_inQ program,
    State.load_outQ program, State.load_status program, State.load_faultKind program, ?_, ?_⟩
  · rw [hostCommand_of_not_running fuel _ hstatus, runCommand_reset fuel s hfits]
  · intro k hk
    rw [State.load_cell, List.getD_eq_getElem program 0 hk]
  · intro k hk
    rw [State.load_cell, List.getD_eq_default program 0 hk]

end Sys2Proof.Machine
end

section
/-! The two memory primitives (spec/20_memory.md R42 to R44): how an access at one address bears on the read at another,
what an address never listed reads as, and the obligation that states the laws. -/

namespace Sys2Proof.Machine

theorem not_isAddr_of_neg {z : Int} (h : z < 0) : ¬ isAddr z := fun hz => Int.not_lt.2 hz.1 h

/-- An address no entry lists reads as unlisted, wherever it lies among the entries. -/
theorem Memory.read_not_listed {m : Memory} {a : Nat} (h : ∀ c ∈ m, c.1 ≠ a) :
    m.read a = Memory.unlisted := by
  induction m with
  | nil => rfl
  | cons c m ih =>
    obtain ⟨hc, ht⟩ := List.forall_mem_cons.1 h
    simp [Memory.read, hc.symm, ih ht]

/-- A write at an address is read back (R44). -/
theorem memRead_write_same {m : Memory} (hm : m.wf) {z : Int} (hz : isAddr z) (v : Word) :
    memRead (m.write z.toNat v) z = .ok v := by
  rw [memRead_of_isAddr _ hz, Memory.read_write_same hm]

/-- A write at an address changes no other read (R44): another address names another cell, and a read outside the
addresses faults in any memory. -/
theorem memRead_write_other (m : Memory) {y z : Int} (hz : isAddr z) (hyz : y ≠ z) (v : Word) :
    memRead (m.write z.toNat v) y = memRead m y := by
  by_cases hy : isAddr y
  · have hcell : y.toNat ≠ z.toNat := by
      have hy0 : 0 ≤ y := hy.1
      have hz0 : 0 ≤ z := hz.1
      omega
    rw [memRead_of_isAddr _ hy, memRead_of_isAddr _ hy, Memory.read_write_other v m hcell]
  · rw [memRead_of_not_isAddr _ hy, memRead_of_not_isAddr _ hy]

/-- Settles O19: the range check decides whether a primitive faults, and at an address it is the memory's own read or
write, whose laws the lemmas above state. -/
theorem memoryPrimitiveLaws : Obligations.MemoryPrimitiveLaws := by
  intro m z v hm
  refine ⟨?negative, ?written, ?neverListed⟩
  case negative =>
    intro hneg
    have hz := not_isAddr_of_neg hneg
    exact ⟨memRead_of_not_isAddr m hz, memWrite_of_not_isAddr m hz v⟩
  case written =>
    intro hz
    have hwrite := memWrite_of_isAddr m hz v
    exact ⟨m.write z.toNat v, hwrite, memWrite_wf hm hwrite, memRead_write_same hm hz v,
      fun y hyz => memRead_write_other m hz hyz v⟩
  case neverListed =>
    intro hz hlisted
    rw [memRead_of_isAddr m hz, Memory.read_not_listed hlisted, Memory.unlisted]

end Sys2Proof.Machine
end

section
/-! The decoder's tests (spec/30_encoding.md R62, R67): one lemma for each way `Decode` answers, first of the natural
number, then read off the decimal digits of a Word that is not negative; the headers `CheckWriteMode` refuses; and the
obligations that state the two rules and the worked decodings (R74). -/

namespace Sys2Proof

theorem exists_opcodeOf {n : Nat} (h : n ∈ [1, 2, 3, 4, 5, 6, 7, 8, 9, 99]) : ∃ op, opcodeOf n = some op :=
  Option.ne_none_iff_exists'.1 fun hnone => opcodeOf_eq_none.1 hnone h

theorem exists_modeOf {n : Nat} (h : ¬ 2 < n) : ∃ m, modeOf n = some m :=
  Option.ne_none_iff_exists'.1 (mt modeOf_eq_none.1 h)

theorem decodeWord_of_neg {w : Word} (h : w.toInt < 0) : decodeWord w = .error .unknownOpcode := if_pos h

theorem decodeWord_of_unknown {w : Word} (ho : opcodeOf (w.toNat % 100) = none) :
    decodeWord w = .error .unknownOpcode := by
  simp [decodeWord, ho]

/-- A mode digit above 2 is met in whichever of the three places it stands. -/
theorem decodeWord_of_bad_digit {w : Word} (h0 : 0 ≤ w.toInt) {op : Opcode}
    (ho : opcodeOf (w.toNat % 100) = some op)
    (hbad : 2 < digit w.toNat 2 ∨ 2 < digit w.toNat 3 ∨ 2 < digit w.toNat 4) :
    decodeWord w = .error .invalidMode := by
  simp only [decodeWord, if_neg (Int.not_lt.2 h0), ho]
  split
  next m1 m2 m3 hm1 hm2 hm3 => simp [← modeOf_eq_none, hm1, hm2, hm3] at hbad
  next => rfl

/-- With the opcode and the three modes known, only the digits above the fifth are left to test. -/
theorem decodeWord_of_modes {w : Word} (h0 : 0 ≤ w.toInt) {op : Opcode} {m1 m2 m3 : Mode}
    (ho : opcodeOf (w.toNat % 100) = some op) (hm1 : modeOf (digit w.toNat 2) = some m1)
    (hm2 : modeOf (digit w.toNat 3) = some m2) (hm3 : modeOf (digit w.toNat 4) = some m3) :
    decodeWord w = if w.toNat / 100000 ≠ 0 then .error .invalidMode else .ok ⟨op, m1, m2, m3⟩ := by
  simp only [decodeWord, if_neg (Int.not_lt.2 h0), ho, hm1, hm2, hm3]

theorem Word.opcode_listed_iff {w : Word} (h0 : 0 ≤ w.toInt) :
    w.toInt % 100 ∈ [1, 2, 3, 4, 5, 6, 7, 8, 9, 99] ↔ w.toNat % 100 ∈ [1, 2, 3, 4, 5, 6, 7, 8, 9, 99] := by
  rw [← Word.toNat_of_nonneg h0]
  simp only [List.mem_cons, List.not_mem_nil, or_false]
  omega

/-- The digits `Decode` reads as modes are those of the Word's value. -/
theorem Word.mode_digits {w : Word} (h0 : 0 ≤ w.toInt) :
    (digit w.toNat 2 : Int) = w.toInt / 100 % 10 ∧ (digit w.toNat 3 : Int) = w.toInt / 1000 % 10 ∧
      (digit w.toNat 4 : Int) = w.toInt / 10000 % 10 := by
  rw [← Word.toNat_of_nonneg h0]
  exact ⟨rfl, rfl, rfl⟩

theorem Word.bad_digit_iff {w : Word} (h0 : 0 ≤ w.toInt) :
    (2 < w.toInt / 100 % 10 ∨ 2 < w.toInt / 1000 % 10 ∨ 2 < w.toInt / 10000 % 10) ↔
      2 < digit w.toNat 2 ∨ 2 < digit w.toNat 3 ∨ 2 < digit w.toNat 4 := by
  obtain ⟨h2, h3, h4⟩ := Word.mode_digits h0
  rw [← h2, ← h3, ← h4]
  norm_cast

/-- A word whose opcode and mode digits are legal passes every test but the last, with these digits in its header. -/
theorem decodeWord_of_legal_digits {w : Word} (h0 : 0 ≤ w.toInt)
    (hknown : w.toInt % 100 ∈ [1, 2, 3, 4, 5, 6, 7, 8, 9, 99])
    (hgood : ¬ (2 < w.toInt / 100 % 10 ∨ 2 < w.toInt / 1000 % 10 ∨ 2 < w.toInt / 10000 % 10)) :
    ∃ h : Header, decodeWord w = (if w.toInt / 100000 ≠ 0 then .error .invalidMode else .ok h) ∧
      h.op.number = w.toInt % 100 ∧ h.m1.digit = w.toInt / 100 % 10 ∧
      h.m2.digit = w.toInt / 1000 % 10 ∧ h.m3.digit = w.toInt / 10000 % 10 := by
  obtain ⟨op, ho⟩ := exists_opcodeOf ((Word.opcode_listed_iff h0).1 hknown)
  obtain ⟨hd2, hd3, hd4⟩ : ¬ 2 < digit w.toNat 2 ∧ ¬ 2 < digit w.toNat 3 ∧ ¬ 2 < digit w.toNat 4 := by
    simpa only [Word.bad_digit_iff h0, not_or] using hgood
  obtain ⟨m1, hm1⟩ := exists_modeOf hd2
  obtain ⟨m2, hm2⟩ := exists_modeOf hd3
  obtain ⟨m3, hm3⟩ := exists_modeOf hd4
  obtain ⟨h2, h3, h4⟩ := Word.mode_digits h0
  refine ⟨⟨op, m1, m2, m3⟩, ?word, ?number, ?first, ?second, ?third⟩
  case word =>
    rw [decodeWord_of_modes h0 ho hm1 hm2 hm3, ← Word.toNat_of_nonneg h0]
    norm_cast
  case number => rw [number_of_opcodeOf ho, ← Word.toNat_of_nonneg h0, Int.natCast_emod, Nat.cast_ofNat]
  case first => rw [digit_of_modeOf hm1, h2]
  case second => rw [digit_of_modeOf hm2, h3]
  case third => rw [digit_of_modeOf hm3, h4]

/-- Settles O14: each clause is one exit of `Decode`, and the last two are the two answers of its last test. -/
theorem decodeTestsInOrder : Obligations.DecodeTestsInOrder := by
  intro w known badDigit
  refine ⟨decodeWord_of_neg, ?unknown, ?badMode, ?highDigits, ?accepted⟩
  case unknown =>
    intro h0 hunknown
    exact decodeWord_of_unknown (opcodeOf_eq_none.2 (mt (Word.opcode_listed_iff h0).2 hunknown))
  case badMode =>
    intro h0 hknown hbad
    obtain ⟨op, ho⟩ := exists_opcodeOf ((Word.opcode_listed_iff h0).1 hknown)
    exact decodeWord_of_bad_digit h0 ho ((Word.bad_digit_iff h0).1 hbad)
  case highDigits =>
    intro h0 hknown hgood hhigh
    obtain ⟨h, hdecode, -⟩ := decodeWord_of_legal_digits h0 hknown hgood
    rw [hdecode, if_pos hhigh]
  case accepted =>
    intro h0 hknown hgood hhigh
    obtain ⟨h, hdecode, hfields⟩ := decodeWord_of_legal_digits h0 hknown hgood
    exact ⟨h, by rw [hdecode, if_neg (not_not.2 hhigh)], hfields⟩

/-- R67: the headers whose write parameter has mode 1. -/
theorem Header.writeMode_eq_immediate_iff (h : Header) : h.writeMode = some .immediate ↔
    (h.op ∈ [.add, .mul, .lt, .eq] ∧ h.m3 = .immediate) ∨ (h.op = .inp ∧ h.m1 = .immediate) := by
  obtain ⟨op, m1, m2, m3⟩ := h
  cases op <;> simp [Header.writeMode]

/-- Settles O15: the headers named are those whose write parameter has mode 1, and `decode` checks that mode before it
looks at the cells. -/
theorem immediateWriteIsInvalid : Obligations.ImmediateWriteIsInvalid := by
  intro h bad
  have hbad : h.writeMode = some .immediate ↔ bad := h.writeMode_eq_immediate_iff
  refine ⟨fun hb => ⟨if_pos (hbad.2 hb), ?anyCells⟩, fun hb => if_neg (mt hbad.1 hb)⟩
  case anyCells =>
    intro w cells hw
    exact decode_cons_of_immediate_write cells hw (hbad.2 hb)

/-- Settles O16: each row of the table evaluates to the instruction or to the fault it names. -/
theorem workedDecodings : Obligations.WorkedDecodings :=
  ⟨⟨rfl, rfl, rfl, rfl, rfl, rfl, rfl, rfl, rfl⟩, ⟨rfl, rfl, rfl, rfl, rfl, rfl, rfl, rfl, rfl, rfl⟩⟩

end Sys2Proof
end

section
/-! `ReadOperand` (spec/40_stepping_engine.md R83): where each mode finds its operand, and the obligation that states the
rule. -/

namespace Sys2Proof.Machine

theorem readOperand_immediate (s : State) (p : Word) : readOperand s ⟨.immediate, p⟩ = .ok p := rfl

theorem readOperand_position (s : State) (p : Word) :
    readOperand s ⟨.position, p⟩ = memRead s.mem p.toInt := rfl

theorem readOperand_relative (s : State) (p : Word) :
    readOperand s ⟨.relative, p⟩ = memRead s.mem (p.toInt + s.rb.toInt) := rfl

/-- Settles O21: an immediate operand is the parameter; the other two modes are a `MemRead`, which the range check
decides. -/
theorem readOperandByMode : Obligations.ReadOperandByMode := by
  intro s p
  rw [readOperand_position, readOperand_relative]
  exact ⟨readOperand_immediate s p, memRead_of_isAddr s.mem, memRead_of_not_isAddr s.mem,
    memRead_of_isAddr s.mem, memRead_of_not_isAddr s.mem⟩

end Sys2Proof.Machine
end

section
/-! The adder and the multiplier (spec/40_stepping_engine.md R86, R87): what wrapping does to an integer at most one
modulus outside the Words, the two results as those of the bit vectors, and the obligations that state the rules. -/

namespace Sys2Proof.Machine

/-- A Word is at least WORD_MIN. -/
theorem Word.min_le_toInt (w : Word) : Config.wordMin ≤ w.toInt := BitVec.le_toInt w

theorem wrapW_toInt_of_word {z : Int} (hlow : Config.wordMin ≤ z) (hhigh : z ≤ Config.wordMax) :
    (wrapW z).toInt = z := by
  unfold Config.wordMin at hlow
  unfold Config.wordMax at hhigh
  rw [wrapW_toInt]
  omega

/-- Above the Words, up to one modulus, wrapping subtracts the modulus. -/
theorem wrapW_toInt_of_above {z : Int} (hlow : Config.wordMax < z) (hhigh : z ≤ Config.wordMax + 2 ^ 64) :
    (wrapW z).toInt = z - 2 ^ 64 := by
  unfold Config.wordMax at hlow hhigh
  rw [wrapW_toInt]
  omega

/-- Below the Words, down to one modulus, wrapping adds the modulus. -/
theorem wrapW_toInt_of_below {z : Int} (hlow : Config.wordMin - 2 ^ 64 ≤ z) (hhigh : z < Config.wordMin) :
    (wrapW z).toInt = z + 2 ^ 64 := by
  unfold Config.wordMin at hlow hhigh
  rw [wrapW_toInt]
  omega

/-- The exact sum of two Words misses the Words by less than one modulus (R86). -/
theorem Word.sum_bounds (a b : Word) : Config.wordMin - 2 ^ 64 ≤ a.toInt + b.toInt ∧
    a.toInt + b.toInt ≤ Config.wordMax + 2 ^ 64 := by
  have halow := Word.min_le_toInt a
  have hblow := Word.min_le_toInt b
  have hahigh := Word.toInt_le_max a
  have hbhigh := Word.toInt_le_max b
  unfold Config.wordMin at *
  unfold Config.wordMax at *
  omega

/-- Wrapping is a ring homomorphism, so the exact sum wraps to the sum of the bit vectors. -/
theorem aluAdd_eq_add (a b : Word) : aluAdd a b = a + b := by
  rw [aluAdd, wrapW, BitVec.ofInt_add, BitVec.ofInt_toInt, BitVec.ofInt_toInt]

/-- The exact signed product wraps to the product of the bit vectors, its low bits. -/
theorem aluMul_eq_mul (a b : Word) : aluMul a b = a * b := by
  rw [aluMul, wrapW, BitVec.ofInt_mul, BitVec.ofInt_toInt, BitVec.ofInt_toInt]

/-- Settles O24: the exact sum lies among, above or below the Words, and wraps accordingly; the laws of 0 and of the
negative are those of the bit vectors. -/
theorem additionWraps : Obligations.AdditionWraps := by
  refine ⟨?wraps, ?zeroAndNegative, by decide, by decide, by decide, by decide⟩
  case wraps =>
    intro a b
    obtain ⟨hlow, hhigh⟩ := Word.sum_bounds a b
    exact ⟨wrapW_toInt_of_word, fun habove => wrapW_toInt_of_above habove hhigh,
      wrapW_toInt_of_below hlow, rfl⟩
  case zeroAndNegative =>
    intro a
    rw [aluAdd_eq_add, aluAdd_eq_add]
    exact ⟨BitVec.add_zero a, BitVec.add_right_neg a⟩

/-- Only WORD_MIN has a negative that is no Word. -/
theorem aluMul_neg_one_toInt {a : Word} (h : a.toInt ≠ Config.wordMin) :
    (aluMul a (-1)).toInt = -a.toInt := by
  have hlow := Word.min_le_toInt a
  have hhigh := Word.toInt_le_max a
  have hprod : a.toInt * (-1 : Word).toInt = -a.toInt := Int.mul_neg_one a.toInt
  unfold Config.wordMin at h hlow
  unfold Config.wordMax at hhigh
  rw [aluMul, hprod]
  apply wrapW_toInt_of_word <;> simp only [Config.wordMin, Config.wordMax] <;> omega

/-- Settles O25: the product is that of the bit vectors, whose laws of 0 and 1 it takes over. -/
theorem multiplicationKeepsLowBits : Obligations.MultiplicationKeepsLowBits := by
  refine ⟨fun a b => ⟨rfl, aluMul_eq_mul a b⟩, ?constants, by decide, by decide, by decide, by decide,
    by decide, by decide, by decide, by decide, by decide⟩
  case constants =>
    intro a
    rw [aluMul_eq_mul, aluMul_eq_mul]
    exact ⟨BitVec.mul_zero, BitVec.mul_one a, aluMul_neg_one_toInt⟩

end Sys2Proof.Machine
end

section
/-! The two comparisons (spec/40_stepping_engine.md R88, R89), one lemma for each answer, and the obligations that state
the rules. -/

namespace Sys2Proof.Machine

theorem aluLt_of_lt {a b : Word} (h : a.toInt < b.toInt) : aluLt a b = 1 := by
  rw [aluLt, decide_eq_true h, truthWord, if_pos rfl]

theorem aluLt_of_not_lt {a b : Word} (h : ¬ a.toInt < b.toInt) : aluLt a b = 0 := by
  rw [aluLt, decide_eq_false h, truthWord, if_neg Bool.false_ne_true]

theorem aluEq_self (a : Word) : aluEq a a = 1 := by
  rw [aluEq, decide_eq_true rfl, truthWord, if_pos rfl]

/-- Different Words are different integers. -/
theorem aluEq_of_ne {a b : Word} (h : a ≠ b) : aluEq a b = 0 := by
  rw [aluEq, decide_eq_false (mt BitVec.toInt_inj.1 h), truthWord, if_neg Bool.false_ne_true]

/-- Settles O26: the answer is decided by the order of the two integers, at the extreme Words as elsewhere. -/
theorem lessThanIsSigned : Obligations.LessThanIsSigned :=
  ⟨fun _ _ => ⟨aluLt_of_lt, aluLt_of_not_lt⟩, aluLt_of_lt (by decide), aluLt_of_lt (by decide),
    aluLt_of_not_lt (by decide), fun a => aluLt_of_not_lt (Int.lt_irrefl a.toInt)⟩

/-- Settles O27: equal Words are equal integers and conversely, for EQ as for the jumps' test against 0. -/
theorem equalityAndZeroTest : Obligations.EqualityAndZeroTest := by
  refine ⟨fun a b => ⟨?equal, aluEq_of_ne⟩, fun _ => ⟨condTrue_iff, condFalse_iff⟩⟩
  case equal =>
    rintro rfl
    exact aluEq_self a

end Sys2Proof.Machine
end

section
/-! The instruction at `ip` read off the decimal digits of its word (spec/30_encoding.md R60 to R62): what the decoder, the
fetch and the operand rules make of `executing`, `digitsLegal`, `modeDigit` and `rawParam`, whatever the opcode. -/

namespace Sys2Proof

theorem Opcode.number_inj {op op' : Opcode} (h : op.number = op'.number) : op = op' := by
  have hnames := congrArg opcodeOf h
  rwa [opcodeOf_number, opcodeOf_number, Option.some_inj] at hnames

/-- Every opcode's number is one the opcode map lists (R65). -/
theorem Opcode.number_listed (op : Opcode) : (op.number : Int) ∈ [1, 2, 3, 4, 5, 6, 7, 8, 9, 99] := by
  cases op <;> decide

end Sys2Proof

namespace Sys2Proof.Machine

/-! ### `Decode` of the word at `ip` -/

/-- An opcode's number at `ip` is one that `Decode` knows. -/
theorem executing.opcode_listed {s : State} {op : Opcode} (hex : executing s op.number) :
    instrWord s % 100 ∈ [1, 2, 3, 4, 5, 6, 7, 8, 9, 99] := by
  obtain ⟨-, -, -, hop⟩ := hex
  rw [hop]
  exact op.number_listed

/-- The digits are legal when none of `Decode`'s tests on them fails. -/
theorem digitsLegal_iff (s : State) : digitsLegal s ↔
    ¬ (2 < instrWord s / 100 % 10 ∨ 2 < instrWord s / 1000 % 10 ∨ 2 < instrWord s / 10000 % 10) ∧
      instrWord s / 100000 = 0 := by
  simp only [digitsLegal, modeDigit, not_or, not_lt, and_assoc]
  rfl

theorem decodeWord_of_illegal_digits {s : State} {op : Opcode} (hex : executing s op.number)
    (hillegal : ¬ digitsLegal s) : decodeWord (s.cell s.ip.toInt.toNat) = .error .invalidMode := by
  have hknown := hex.opcode_listed
  obtain ⟨-, -, hword, -⟩ := hex
  obtain ⟨-, -, hbadMode, hhighDigits, -⟩ := decodeTestsInOrder (s.cell s.ip.toInt.toNat)
  by_cases hbad : 2 < instrWord s / 100 % 10 ∨ 2 < instrWord s / 1000 % 10 ∨ 2 < instrWord s / 10000 % 10
  · exact hbadMode hword hknown hbad
  · exact hhighDigits hword hknown hbad fun hhigh => hillegal ((digitsLegal_iff s).2 ⟨hbad, hhigh⟩)

/-- Legal digits are the header's: the opcode of digits 1 and 0 and the three modes. -/
theorem decodeWord_of_digitsLegal {s : State} {op : Opcode} (hex : executing s op.number)
    (hlegal : digitsLegal s) : ∃ m1 m2 m3 : Mode,
      decodeWord (s.cell s.ip.toInt.toNat) = .ok ⟨op, m1, m2, m3⟩ ∧
      m1.digit = modeDigit s 1 ∧ m2.digit = modeDigit s 2 ∧ m3.digit = modeDigit s 3 := by
  have hknown := hex.opcode_listed
  obtain ⟨-, -, hword, hop⟩ := hex
  obtain ⟨-, -, -, -, haccepted⟩ := decodeTestsInOrder (s.cell s.ip.toInt.toNat)
  obtain ⟨hgood, hhigh⟩ := (digitsLegal_iff s).1 hlegal
  obtain ⟨⟨op', m1, m2, m3⟩, hdecode, hnumber, h1, h2, h3⟩ :=
    haccepted hword hknown hgood hhigh
  obtain rfl : op' = op := Opcode.number_inj (Int.ofNat_inj.1 (hnumber.trans hop))
  exact ⟨m1, m2, m3, hdecode, h1, h2, h3⟩

/-! ### The cells at `ip` and the fetch -/

/-- After the instruction word come as many parameter cells, at most three, as `ip` has room for. -/
theorem cellsFrom_ip {s : State} (h0 : 0 ≤ s.ip.toInt) :
    ∃ m, (∀ n ≤ 3, ipRoom s n ↔ n ≤ m) ∧ cellsFrom s s.ip.toInt.toNat =
      s.cell s.ip.toInt.toNat :: (List.range m).map fun k => rawParam s (k + 1) := by
  have hip : (s.ip.toInt.toNat : Int) = s.ip.toInt := Int.toNat_of_nonneg h0
  have hmax := Word.toInt_le_max s.ip
  have hcells := cellsFrom_cases s (hip ▸ hmax)
  rw [hip] at hcells
  unfold ipRoom
  obtain ⟨hend, hcells⟩ | ⟨hroom, hend, hcells⟩ | ⟨hroom, hend, hcells⟩ | ⟨hroom, hcells⟩ := hcells
  · exact ⟨0, fun n _ => by omega, hcells⟩
  · exact ⟨1, fun n _ => by omega, hcells⟩
  · exact ⟨2, fun n _ => by omega, hcells⟩
  · exact ⟨3, fun n _ => by omega, hcells⟩

/-- A word `Decode` refuses is a fault of the fetch. -/
theorem fetch_of_decodeWord_error {s : State} {k : FaultKind} (h0 : 0 ≤ s.ip.toInt)
    (hword : decodeWord (s.cell s.ip.toInt.toNat) = .error k) : fetch s = .error k := by
  obtain ⟨m, -, hcells⟩ := cellsFrom_ip h0
  rw [fetch_of_nonneg h0, hcells, decode_cons_of_error _ hword]

/-- An immediate write parameter is a fault of the fetch (R67). -/
theorem fetch_of_immediate_write {s : State} {hd : Header} (h0 : 0 ≤ s.ip.toInt)
    (hword : decodeWord (s.cell s.ip.toInt.toNat) = .ok hd) (hwrite : hd.writeMode = some .immediate) :
    fetch s = .error .invalidMode := by
  obtain ⟨m, -, hcells⟩ := cellsFrom_ip h0
  rw [fetch_of_nonneg h0, hcells, decode_cons_of_immediate_write _ hword hwrite]

theorem take3_map_range (build : Word → Word → Word → Instr) (f : Nat → Word) (m : Nat) :
    take3 build ((List.range m).map f) =
      if 3 ≤ m then .ok (build (f 0) (f 1) (f 2), ((List.range m).map f).drop 3)
      else .error .negativeAddress := by
  match m with
  | 0 | 1 | 2 => rfl
  | m + 3 => simp [List.range_succ_eq_map, take3, take2, take1]

/-- The fetch of an instruction with three parameters: its cells are there, or the missing one is a fault (R82). -/
theorem fetch_three_params {s : State} {hd : Header} {build : Word → Word → Word → Instr} (h0 : 0 ≤ s.ip.toInt)
    (hword : decodeWord (s.cell s.ip.toInt.toNat) = .ok hd) (hwrite : hd.writeMode ≠ some .immediate)
    (hbuild : ∀ cells, assemble hd cells = take3 build cells) :
    fetch s = if ipRoom s 3 then .ok (build (rawParam s 1) (rawParam s 2) (rawParam s 3))
      else .error .negativeAddress := by
  obtain ⟨m, hroom, hcells⟩ := cellsFrom_ip h0
  rw [fetch_of_nonneg h0, hcells, decode_cons_of_ok _ hword hwrite, hbuild, take3_map_range]
  by_cases h3 : 3 ≤ m
  · rw [if_pos h3, if_pos ((hroom 3 le_rfl).2 h3)]
  · rw [if_neg h3, if_neg (mt (hroom 3 le_rfl).1 h3)]

/-! ### A parameter whose mode is the one its digit names -/

section
variable {s : State} {m : Mode} {k : Nat}

theorem immediate_iff_modeDigit (hm : m.digit = modeDigit s k) : m = .immediate ↔ modeDigit s k = 1 := by
  rw [← hm]
  cases m <;> decide

theorem relative_iff_modeDigit (hm : m.digit = modeDigit s k) : m = .relative ↔ modeDigit s k = 2 := by
  rw [← hm]
  cases m <;> decide

theorem effAddr_eq_paramAddr (hm : m.digit = modeDigit s k) :
    effAddr s ⟨m, rawParam s k⟩ = paramAddr s k := by
  simp only [effAddr, paramAddr, relative_iff_modeDigit hm]

theorem canRead_iff_paramReadable (hm : m.digit = modeDigit s k) :
    canRead s ⟨m, rawParam s k⟩ ↔ paramReadable s k := by
  rw [canRead, paramReadable, effAddr_eq_paramAddr hm, immediate_iff_modeDigit hm]

theorem valueOf_eq_paramValue (hm : m.digit = modeDigit s k) :
    valueOf s ⟨m, rawParam s k⟩ = paramValue s k := by
  simp only [valueOf, paramValue, effAddr_eq_paramAddr hm, immediate_iff_modeDigit hm]

theorem canWrite_iff_isAddr_paramAddr (hm : m.digit = modeDigit s k) (hwrite : modeDigit s k ≠ 1) :
    canWrite s ⟨m, rawParam s k⟩ ↔ isAddr (paramAddr s k) := by
  rw [canWrite, effAddr_eq_paramAddr hm, Ne, immediate_iff_modeDigit hm]
  exact and_iff_right hwrite

theorem targetOf_eq_paramAddr (hm : m.digit = modeDigit s k) :
    targetOf s ⟨m, rawParam s k⟩ = (paramAddr s k).toNat := by
  rw [targetOf, effAddr_eq_paramAddr hm]

end

end Sys2Proof.Machine
end

section
/-! The whole `Step` on the word of an instruction that stores a result (spec/41_arithmetic.md, spec/44_compare.md): the
rule they share, proved once for every such opcode, and the obligations that state it for ADD and MUL. -/

namespace Sys2Proof.Machine

/-- What a storing instruction's resolved stages commit. -/
theorem storeResult_of_resolved (f : Word → Word → Word) {p1 p2 p3 : Param} {s : State}
    (h : canRead s p1 ∧ canRead s p2 ∧ canWrite s p3 ∧ ipRoom s 4) :
    storeResult f p1 p2 p3 s =
      .ok ((s.store (targetOf s p3) (f (valueOf s p1) (valueOf s p2))).setIp (ipPlus s 4)) := by
  obtain ⟨himm, -⟩ | ⟨-, hnot, -⟩ | ⟨-, hresult⟩ := storeResult_cases f p1 p2 p3 s
  · obtain ⟨-, -, ⟨hmode, -⟩, -⟩ := h
    exact absurd himm hmode
  · exact absurd h hnot
  · exact hresult

theorem storeResult_of_not_resolved (f : Word → Word → Word) {p1 p2 p3 : Param} {s : State}
    (hmode : p3.mode ≠ .immediate) (h : ¬ (canRead s p1 ∧ canRead s p2 ∧ canWrite s p3 ∧ ipRoom s 4)) :
    storeResult f p1 p2 p3 s = .error .negativeAddress := by
  obtain ⟨himm, -⟩ | ⟨-, -, hresult⟩ | ⟨hres, -⟩ := storeResult_cases f p1 p2 p3 s
  · exact absurd himm hmode
  · exact hresult
  · exact absurd hres h

/-- The opcode `op` decodes to the three-parameter instruction `build`, which writes `f` of operands 1 and 2 through
parameter 3: what ADD, MUL, LT and EQ have in common. -/
structure IsStoring (op : Opcode) (build : Param → Param → Param → Instr) (f : Word → Word → Word) : Prop where
  /-- its write parameter is the third -/
  writeMode : ∀ m1 m2 m3, (Header.mk op m1 m2 m3).writeMode = some m3
  /-- it has three parameter cells -/
  assemble : ∀ m1 m2 m3 cells,
    assemble ⟨op, m1, m2, m3⟩ cells = take3 (fun a b c => build ⟨m1, a⟩ ⟨m2, b⟩ ⟨m3, c⟩) cells
  /-- its meaning is the stages that store -/
  exec : ∀ p1 p2 p3 s, exec (build p1 p2 p3) s = conclude s (storeResult f p1 p2 p3 s)

theorem isStoring_add : IsStoring .add .add aluAdd :=
  ⟨fun _ _ _ => rfl, fun _ _ _ _ => rfl, fun _ _ _ _ => rfl⟩

theorem isStoring_mul : IsStoring .mul .mul aluMul :=
  ⟨fun _ _ _ => rfl, fun _ _ _ _ => rfl, fun _ _ _ _ => rfl⟩

section
variable {op : Opcode} {build : Param → Param → Param → Instr} {f : Word → Word → Word} {s : State}

/-- The digit faults: `Decode` refuses an illegal digit, `CheckWriteMode` the digit 1 of parameter 3. -/
theorem IsStoring.step_of_digit_fault (hst : IsStoring op build f) (hex : executing s op.number)
    (hbad : ¬ digitsLegal s ∨ modeDigit s 3 = 1) : step s = .next (raise .invalidMode s) := by
  have ⟨hrun, h0, _⟩ := hex
  apply step_of_fetch_error hrun
  by_cases hlegal : digitsLegal s
  · obtain ⟨m1, m2, m3, hword, -, -, h3⟩ := decodeWord_of_digitsLegal hex hlegal
    have himm : m3 = .immediate := (immediate_iff_modeDigit h3).2 (hbad.resolve_left (not_not.2 hlegal))
    exact fetch_of_immediate_write h0 hword (himm ▸ hst.writeMode m1 m2 m3)
  · exact fetch_of_decodeWord_error h0 (decodeWord_of_illegal_digits hex hlegal)

/-- With legal digits the step runs `build` on the parameters the digits and the cells give, if the cells exist. -/
theorem IsStoring.step_of_digitsLegal (hst : IsStoring op build f) (hex : executing s op.number)
    (hlegal : digitsLegal s) (hwrite : modeDigit s 3 ≠ 1) : ∃ m1 m2 m3 : Mode,
      m1.digit = modeDigit s 1 ∧ m2.digit = modeDigit s 2 ∧ m3.digit = modeDigit s 3 ∧
      step s = if ipRoom s 3 then
          conclude s (storeResult f ⟨m1, rawParam s 1⟩ ⟨m2, rawParam s 2⟩ ⟨m3, rawParam s 3⟩ s)
        else .next (raise .negativeAddress s) := by
  have ⟨hrun, h0, _⟩ := hex
  obtain ⟨m1, m2, m3, hword, h1, h2, h3⟩ := decodeWord_of_digitsLegal hex hlegal
  have hm3 : (Header.mk op m1 m2 m3).writeMode ≠ some .immediate := by
    rw [hst.writeMode, Ne, Option.some_inj, immediate_iff_modeDigit h3]
    exact hwrite
  have hfetch := fetch_three_params h0 hword hm3 (hst.assemble m1 m2 m3)
  refine ⟨m1, m2, m3, h1, h2, h3, ?_⟩
  by_cases hroom : ipRoom s 3
  · rw [if_pos hroom] at hfetch ⊢
    rw [step_of_fetch_ok hrun hfetch, hst.exec]
  · rw [if_neg hroom] at hfetch ⊢
    exact step_of_fetch_error hrun hfetch

/-- The rule ADD, MUL, LT and EQ share: the parameters read off the digits resolve when the decoded ones do. -/
theorem IsStoring.storeRule (hst : IsStoring op build f) : storeRule op.number f := by
  intro s hex resolved
  refine ⟨hst.step_of_digit_fault hex, fun hlegal hwrite => ?_⟩
  obtain ⟨m1, m2, m3, h1, h2, h3, hstep⟩ := hst.step_of_digitsLegal hex hlegal hwrite
  have hres : canRead s ⟨m1, rawParam s 1⟩ ∧ canRead s ⟨m2, rawParam s 2⟩ ∧ canWrite s ⟨m3, rawParam s 3⟩ ∧
      ipRoom s 4 ↔ resolved := by
    rw [canRead_iff_paramReadable h1, canRead_iff_paramReadable h2, canWrite_iff_isAddr_paramAddr h3 hwrite]
    exact ⟨fun ⟨hr1, hr2, hw3, hroom⟩ => ⟨hroom, hr1, hr2, hw3⟩,
      fun ⟨hroom, hr1, hr2, hw3⟩ => ⟨hr1, hr2, hw3, hroom⟩⟩
  refine ⟨fun h => ?completes, fun h => ?addressFault⟩
  case completes =>
    have hroom : ipRoom s 3 := ipRoom.mono h.1 (by decide)
    rw [hstep, if_pos hroom, storeResult_of_resolved f (hres.2 h), conclude_ok, targetOf_eq_paramAddr h3,
      valueOf_eq_paramValue h1, valueOf_eq_paramValue h2]
  case addressFault =>
    have hmode : m3 ≠ .immediate := mt (immediate_iff_modeDigit h3).1 hwrite
    rw [hstep, storeResult_of_not_resolved f hmode (mt hres.1 h), conclude_error, ite_self]

end

/-- Settles O33: ADD is a storing instruction, with the wrapped sum as its result. -/
theorem stepOfAdd : Obligations.StepOfAdd := isStoring_add.storeRule

/-- Settles O34: MUL is a storing instruction, with the wrapped product as its result. -/
theorem stepOfMul : Obligations.StepOfMul := isStoring_mul.storeRule

end Sys2Proof.Machine
end

section
/-! The `Step` on the word of an instruction with one parameter (spec/40_stepping_engine.md R80 to R82): the parameter
cell it fetches, and its end in the digits' terms, whatever the opcode. -/

namespace Sys2Proof.Machine

theorem take1_map_range (build : Word → Instr) (f : Nat → Word) (m : Nat) :
    take1 build ((List.range m).map f) =
      if 1 ≤ m then .ok (build (f 0), ((List.range m).map f).drop 1) else .error .negativeAddress := by
  match m with
  | 0 => rfl
  | m + 1 => simp [List.range_succ_eq_map, take1]

/-- The fetch of an instruction with one parameter: its cell is there, or its absence is a fault (R82). -/
theorem fetch_one_param {s : State} {hd : Header} {build : Word → Instr} (h0 : 0 ≤ s.ip.toInt)
    (hword : decodeWord (s.cell s.ip.toInt.toNat) = .ok hd) (hwrite : hd.writeMode ≠ some .immediate)
    (hbuild : ∀ cells, assemble hd cells = take1 build cells) :
    fetch s = if ipRoom s 1 then .ok (build (rawParam s 1)) else .error .negativeAddress := by
  obtain ⟨m, hroom, hcells⟩ := cellsFrom_ip h0
  rw [fetch_of_nonneg h0, hcells, decode_cons_of_ok _ hword hwrite, hbuild, take1_map_range]
  by_cases h1 : 1 ≤ m
  · rw [if_pos h1, if_pos ((hroom 1 (by decide)).2 h1)]
  · rw [if_neg h1, if_neg (mt (hroom 1 (by decide)).1 h1)]

/-- `Decode` refuses an illegal digit, and the step raises its fault. -/
theorem step_of_illegal_digits {s : State} {op : Opcode} (hex : executing s op.number)
    (hillegal : ¬ digitsLegal s) : step s = .next (raise .invalidMode s) := by
  have ⟨hrun, h0, _⟩ := hex
  exact step_of_fetch_error hrun (fetch_of_decodeWord_error h0 (decodeWord_of_illegal_digits hex hillegal))

/-- The opcode `op` decodes to the one-parameter instruction `build`, whose meaning is `stages`: what IN, OUT and ARB
have in common. -/
structure HasOneParam (op : Opcode) (build : Param → Mode → Mode → Instr)
    (stages : Param → State → Except FaultKind State) : Prop where
  /-- it has one parameter cell -/
  assemble : ∀ m1 m2 m3 cells,
    assemble ⟨op, m1, m2, m3⟩ cells = take1 (fun a => build ⟨m1, a⟩ m2 m3) cells
  /-- its meaning ignores the digits of the slots it lacks -/
  exec : ∀ p1 u2 u3 s, exec (build p1 u2 u3) s = conclude s (stages p1 s)

/-- With legal digits the step runs the stages on the parameter the digit and the cell give, if the cell exists. Only a
write parameter with digit 1 is kept from them (R67). -/
theorem HasOneParam.step_of_digitsLegal {op : Opcode} {build : Param → Mode → Mode → Instr}
    {stages : Param → State → Except FaultKind State} {s : State} (hone : HasOneParam op build stages)
    (hex : executing s op.number) (hlegal : digitsLegal s)
    (hwrite : ∀ m1 m2 m3 : Mode, m1.digit = modeDigit s 1 →
      (Header.mk op m1 m2 m3).writeMode ≠ some .immediate) :
    ∃ m1 : Mode, m1.digit = modeDigit s 1 ∧
      step s = if ipRoom s 1 then conclude s (stages ⟨m1, rawParam s 1⟩ s)
        else .next (raise .negativeAddress s) := by
  have ⟨hrun, h0, _⟩ := hex
  obtain ⟨m1, m2, m3, hword, h1, -, -⟩ := decodeWord_of_digitsLegal hex hlegal
  have hfetch := fetch_one_param h0 hword (hwrite m1 m2 m3 h1) (hone.assemble m1 m2 m3)
  refine ⟨m1, h1, ?_⟩
  by_cases hroom : ipRoom s 1
  · rw [if_pos hroom] at hfetch ⊢
    rw [step_of_fetch_ok hrun hfetch, hone.exec]
  · rw [if_neg hroom] at hfetch ⊢
    exact step_of_fetch_error hrun hfetch

end Sys2Proof.Machine
end

section
/-! The whole `Step` on the word of an IN (spec/42_io.md R110): what its stages answer when the target resolves and when
it does not, its digit faults, and the obligation that states the rule. -/

namespace Sys2Proof.Machine

section
variable {p1 : Param} {s : State}

/-- Once the target resolves, the input queue alone decides what the stages of IN commit. -/
theorem takeInput_of_resolved (h : canWrite s p1 ∧ ipRoom s 2) :
    (s.inQ = [] ∧ takeInput p1 s = .ok (s.setStatus .awaitingInput)) ∨
    ∃ v rest, s.inQ = v :: rest ∧
      takeInput p1 s = .ok (((s.setInQ rest).store (targetOf s p1) v).setIp (ipPlus s 2)) := by
  obtain ⟨himm, -⟩ | ⟨-, hnot, -⟩ | ⟨-, hempty⟩ | ⟨-, htaken⟩ := takeInput_cases p1 s
  · exact absurd himm h.1.1
  · exact absurd h hnot
  · exact .inl hempty
  · exact .inr htaken

theorem takeInput_of_empty (h : canWrite s p1 ∧ ipRoom s 2) (hq : s.inQ = []) :
    takeInput p1 s = .ok (s.setStatus .awaitingInput) := by
  obtain ⟨-, hresult⟩ | ⟨v, rest, hcons, -⟩ := takeInput_of_resolved h
  · exact hresult
  · cases hq.symm.trans hcons

theorem takeInput_of_cons {v : Word} {rest : List Word} (h : canWrite s p1 ∧ ipRoom s 2)
    (hq : s.inQ = v :: rest) :
    takeInput p1 s = .ok (((s.setInQ rest).store (targetOf s p1) v).setIp (ipPlus s 2)) := by
  obtain ⟨hempty, -⟩ | ⟨v', rest', hcons, hresult⟩ := takeInput_of_resolved h
  · cases hq.symm.trans hempty
  · cases hq.symm.trans hcons
    exact hresult

theorem takeInput_of_not_resolved (hmode : p1.mode ≠ .immediate) (h : ¬ (canWrite s p1 ∧ ipRoom s 2)) :
    takeInput p1 s = .error .negativeAddress := by
  obtain ⟨himm, -⟩ | ⟨-, -, hresult⟩ | ⟨hres, -⟩ | ⟨hres, -⟩ := takeInput_cases p1 s
  · exact absurd himm hmode
  · exact hresult
  · exact absurd hres h
  · exact absurd hres h

end

theorem hasOneParam_inp : HasOneParam .inp .inp takeInput := ⟨fun _ _ _ _ => rfl, fun _ _ _ _ => rfl⟩

/-- The digit faults of IN: `Decode` refuses an illegal digit, `CheckWriteMode` the digit 1 of parameter 1. -/
theorem step_inp_of_digit_fault {s : State} (hex : executing s Opcode.inp.number)
    (hbad : ¬ digitsLegal s ∨ modeDigit s 1 = 1) : step s = .next (raise .invalidMode s) := by
  by_cases hlegal : digitsLegal s
  · have ⟨hrun, h0, _⟩ := hex
    obtain ⟨m1, m2, m3, hword, h1, -, -⟩ := decodeWord_of_digitsLegal hex hlegal
    have himm : m1 = .immediate := (immediate_iff_modeDigit h1).2 (hbad.resolve_left (not_not.2 hlegal))
    exact step_of_fetch_error hrun (fetch_of_immediate_write h0 hword (congrArg some himm))
  · exact step_of_illegal_digits hex hlegal

/-- Settles O37: the target read off the digits resolves when the decoded one does, and only then is the queue looked
at. -/
theorem stepOfIn : Obligations.StepOfIn := by
  intro s hex resolved
  refine ⟨step_inp_of_digit_fault hex, fun hlegal hwrite => ?_⟩
  obtain ⟨m1, h1, hstep⟩ := hasOneParam_inp.step_of_digitsLegal hex hlegal
    fun m1 _ _ h1 himm => hwrite ((immediate_iff_modeDigit h1).1 (Option.some_inj.1 himm))
  have hres : canWrite s ⟨m1, rawParam s 1⟩ ∧ ipRoom s 2 ↔ resolved := by
    rw [canWrite_iff_isAddr_paramAddr h1 hwrite, and_comm]
  have hroom (h : resolved) : ipRoom s 1 := ipRoom.mono h.1 (by decide)
  refine ⟨fun h hq => ?suspends, fun v rest h hq => ?takes, fun h => ?addressFault⟩
  case suspends => rw [hstep, if_pos (hroom h), takeInput_of_empty (hres.2 h) hq, conclude_ok]
  case takes =>
    rw [hstep, if_pos (hroom h), takeInput_of_cons (hres.2 h) hq, conclude_ok, targetOf_eq_paramAddr h1]
  case addressFault =>
    have hmode : m1 ≠ .immediate := mt (immediate_iff_modeDigit h1).1 hwrite
    rw [hstep, takeInput_of_not_resolved hmode (mt hres.1 h), conclude_error, ite_self]

end Sys2Proof.Machine
end

section
/-! The whole `Step` on the word of an instruction that uses one operand (spec/42_io.md R111,
spec/45_relative_base.md R140): the rule they share, proved once for every such opcode, and the obligation that states
it for OUT. -/

namespace Sys2Proof.Machine

section
variable (g : Word → State → State) {p1 : Param} {s : State}

theorem useOperand_of_resolved (h : canRead s p1 ∧ ipRoom s 2) :
    useOperand g p1 s = .ok ((g (valueOf s p1) s).setIp (ipPlus s 2)) := by
  obtain ⟨hnot, -⟩ | ⟨-, hresult⟩ := useOperand_cases g p1 s
  · exact absurd h hnot
  · exact hresult

theorem useOperand_of_not_resolved (h : ¬ (canRead s p1 ∧ ipRoom s 2)) :
    useOperand g p1 s = .error .negativeAddress := by
  obtain ⟨-, hresult⟩ | ⟨hres, -⟩ := useOperand_cases g p1 s
  · exact hresult
  · exact absurd hres h

end

/-- The rule OUT and ARB share: the operand read off the digits resolves when the decoded one does, and a digit 1 faults
nothing, since there is no write parameter. -/
theorem HasOneParam.operandRule {op : Opcode} {build : Param → Mode → Mode → Instr}
    {g : Word → State → State} (hone : HasOneParam op build (useOperand g))
    (hnowrite : ∀ m1 m2 m3, (Header.mk op m1 m2 m3).writeMode = none) : operandRule op.number g := by
  intro s hex resolved
  have hlegalStep (hlegal : digitsLegal s) := hone.step_of_digitsLegal hex hlegal
    fun m1 m2 m3 _ => (hnowrite m1 m2 m3).trans_ne nofun
  have hres {m1 : Mode} (h1 : m1.digit = modeDigit s 1) :
      canRead s ⟨m1, rawParam s 1⟩ ∧ ipRoom s 2 ↔ resolved := by
    rw [canRead_iff_paramReadable h1, and_comm]
  refine ⟨step_of_illegal_digits hex, fun hlegal h => ?completes, fun hlegal h => ?addressFault⟩
  case completes =>
    obtain ⟨m1, h1, hstep⟩ := hlegalStep hlegal
    have hroom : ipRoom s 1 := ipRoom.mono h.1 (by decide)
    rw [hstep, if_pos hroom, useOperand_of_resolved g ((hres h1).2 h), conclude_ok, valueOf_eq_paramValue h1]
  case addressFault =>
    obtain ⟨m1, h1, hstep⟩ := hlegalStep hlegal
    rw [hstep, useOperand_of_not_resolved g (mt (hres h1).1 h), conclude_error, ite_self]

theorem hasOneParam_out : HasOneParam .out .out (useOperand fun r s => s.setOutQ (s.outQ ++ [r])) :=
  ⟨fun _ _ _ _ => rfl, fun _ _ _ _ => rfl⟩

/-- Settles O38: OUT uses one operand, which it appends to the output queue. -/
theorem stepOfOut : Obligations.StepOfOut := hasOneParam_out.operandRule fun _ _ _ => rfl

end Sys2Proof.Machine
end

section
/-! The whole `Step` on the word of a jump (spec/43_jumps.md R120, R121): what the stages of a jump answer, the two
parameter cells it fetches, the rule JT and JF share, and the obligations that state it. -/

namespace Sys2Proof.Machine

/-! ### The stages -/

section
variable {taken : Word → Bool} {p1 p2 : Param} {s : State}

theorem jumpOk_iff_of_taken (ht : taken (valueOf s p1) = true) :
    jumpOk taken p1 p2 s ↔ 0 ≤ (valueOf s p2).toInt := by
  rw [jumpOk, if_pos ht]

theorem jumpOk_iff_of_not_taken (ht : ¬ taken (valueOf s p1) = true) : jumpOk taken p1 p2 s ↔ ipRoom s 3 := by
  rw [jumpOk, if_neg ht]

theorem jumpWhen_of_ok (h : ipRoom s 2 ∧ canRead s p1 ∧ canRead s p2) (hok : jumpOk taken p1 p2 s) :
    jumpWhen taken p1 p2 s =
      .ok (s.setIp (if taken (valueOf s p1) = true then valueOf s p2 else ipPlus s 3)) := by
  obtain ⟨hnot, -⟩ | ⟨-, hresult⟩ := jumpWhen_cases taken p1 p2 s
  · obtain ⟨hroom, hr1, hr2⟩ := h
    exact absurd ⟨hroom, hr1, hr2, hok⟩ hnot
  · exact hresult

theorem jumpWhen_of_not_ok
    (h : ¬ ((ipRoom s 2 ∧ canRead s p1 ∧ canRead s p2) ∧ jumpOk taken p1 p2 s)) :
    jumpWhen taken p1 p2 s = .error .negativeAddress := by
  obtain ⟨-, hresult⟩ | ⟨⟨hroom, hr1, hr2, hok⟩, -⟩ := jumpWhen_cases taken p1 p2 s
  · exact hresult
  · exact absurd ⟨⟨hroom, hr1, hr2⟩, hok⟩ h

end

/-! ### The fetch of two parameters -/

theorem take2_map_range (build : Word → Word → Instr) (f : Nat → Word) (m : Nat) :
    take2 build ((List.range m).map f) =
      if 2 ≤ m then .ok (build (f 0) (f 1), ((List.range m).map f).drop 2) else .error .negativeAddress := by
  match m with
  | 0 | 1 => rfl
  | m + 2 => simp [List.range_succ_eq_map, take2, take1]

/-- The fetch of an instruction with two parameters: its cells are there, or the missing one is a fault (R82). -/
theorem fetch_two_params {s : State} {hd : Header} {build : Word → Word → Instr} (h0 : 0 ≤ s.ip.toInt)
    (hword : decodeWord (s.cell s.ip.toInt.toNat) = .ok hd) (hwrite : hd.writeMode ≠ some .immediate)
    (hbuild : ∀ cells, assemble hd cells = take2 build cells) :
    fetch s = if ipRoom s 2 then .ok (build (rawParam s 1) (rawParam s 2)) else .error .negativeAddress := by
  obtain ⟨m, hroom, hcells⟩ := cellsFrom_ip h0
  rw [fetch_of_nonneg h0, hcells, decode_cons_of_ok _ hword hwrite, hbuild, take2_map_range]
  by_cases h2 : 2 ≤ m
  · rw [if_pos h2, if_pos ((hroom 2 (by decide)).2 h2)]
  · rw [if_neg h2, if_neg (mt (hroom 2 (by decide)).1 h2)]

/-! ### The step -/

/-- The opcode `op` decodes to the two-parameter instruction `build`, which jumps when `taken` holds of operand 1: what
JT and JF have in common. -/
structure IsJump (op : Opcode) (build : Param → Param → Mode → Instr) (taken : Word → Bool) : Prop where
  /-- it has no write parameter -/
  writeMode : ∀ m1 m2 m3, (Header.mk op m1 m2 m3).writeMode = none
  /-- it has two parameter cells -/
  assemble : ∀ m1 m2 m3 cells,
    assemble ⟨op, m1, m2, m3⟩ cells = take2 (fun a b => build ⟨m1, a⟩ ⟨m2, b⟩ m3) cells
  /-- its meaning is the stages of a jump -/
  exec : ∀ p1 p2 u3 s, exec (build p1 p2 u3) s = conclude s (jumpWhen taken p1 p2 s)

theorem isJump_jt : IsJump .jt .jt condTrue :=
  ⟨fun _ _ _ => rfl, fun _ _ _ _ => rfl, fun _ _ _ _ => rfl⟩

theorem isJump_jf : IsJump .jf .jf condFalse :=
  ⟨fun _ _ _ => rfl, fun _ _ _ _ => rfl, fun _ _ _ _ => rfl⟩

section
variable {op : Opcode} {build : Param → Param → Mode → Instr} {taken : Word → Bool}

/-- With legal digits the step runs the stages on the two parameters the digits and the cells give; a missing cell is
the stages' own first fault. -/
theorem IsJump.step_of_digitsLegal {s : State} (hjump : IsJump op build taken) (hex : executing s op.number)
    (hlegal : digitsLegal s) : ∃ p1 p2 : Param,
      (canRead s p1 ↔ paramReadable s 1) ∧ (canRead s p2 ↔ paramReadable s 2) ∧
      valueOf s p1 = paramValue s 1 ∧ valueOf s p2 = paramValue s 2 ∧
      step s = conclude s (jumpWhen taken p1 p2 s) := by
  have ⟨hrun, h0, _⟩ := hex
  obtain ⟨m1, m2, m3, hword, h1, h2, -⟩ := decodeWord_of_digitsLegal hex hlegal
  have hfetch := fetch_two_params h0 hword ((hjump.writeMode m1 m2 m3).trans_ne nofun)
    (hjump.assemble m1 m2 m3)
  refine ⟨⟨m1, rawParam s 1⟩, ⟨m2, rawParam s 2⟩, canRead_iff_paramReadable h1, canRead_iff_paramReadable h2,
    valueOf_eq_paramValue h1, valueOf_eq_paramValue h2, ?_⟩
  by_cases hroom : ipRoom s 2
  · rw [if_pos hroom] at hfetch
    rw [step_of_fetch_ok hrun hfetch, hjump.exec]
  · rw [if_neg hroom] at hfetch
    rw [step_of_fetch_error hrun hfetch, jumpWhen_of_not_ok fun h => hroom h.1.1, conclude_error]

/-- The rule JT and JF share: the operands read off the digits resolve when the decoded ones do, and have their
values. -/
theorem IsJump.jumpRule {cond : Word → Prop} (hjump : IsJump op build taken)
    (hcond : ∀ {v}, taken v = true ↔ cond v) : jumpRule op.number cond := by
  intro s hex resolved takes target
  refine ⟨step_of_illegal_digits hex, ?_⟩
  -- the clauses by their shared premises: legal digits, then resolved operands, then whether the jump is taken
  simp only [← imp_and]
  intro hlegal
  obtain ⟨p1, p2, hread1, hread2, hvalue1, hvalue2, hstep⟩ := hjump.step_of_digitsLegal hex hlegal
  have hres : ipRoom s 2 ∧ canRead s p1 ∧ canRead s p2 ↔ resolved := by rw [hread1, hread2]
  have htaken : taken (valueOf s p1) = true ↔ takes := by rw [hvalue1, hcond]
  have htarget : valueOf s p2 = target := hvalue2
  rw [hstep, ← hres, ← htaken, ← htarget]
  refine ⟨fun h => ?unresolved, fun h => ⟨fun ht h0 => ?jumps, fun ht hneg => ?badTarget,
    fun ht => ⟨fun hroom => ?fallsThrough, fun hend => ?noSuccessor⟩⟩⟩
  case unresolved => rw [jumpWhen_of_not_ok fun hall => h hall.1, conclude_error]
  case jumps => rw [jumpWhen_of_ok h ((jumpOk_iff_of_taken ht).2 h0), if_pos ht, conclude_ok]
  case badTarget =>
    rw [jumpWhen_of_not_ok fun hall => Int.not_le.2 hneg ((jumpOk_iff_of_taken ht).1 hall.2), conclude_error]
  case fallsThrough => rw [jumpWhen_of_ok h ((jumpOk_iff_of_not_taken ht).2 hroom), if_neg ht, conclude_ok]
  case noSuccessor =>
    rw [jumpWhen_of_not_ok fun hall => hend ((jumpOk_iff_of_not_taken ht).1 hall.2), conclude_error]

end

/-- Settles O40: JT jumps when operand 1 is not 0. -/
theorem stepOfJt : Obligations.StepOfJt := isJump_jt.jumpRule condTrue_iff

/-- Settles O41: JF jumps when operand 1 is 0. -/
theorem stepOfJf : Obligations.StepOfJf := isJump_jf.jumpRule condFalse_iff

end Sys2Proof.Machine
end

section
/-! Where `ip` goes after an instruction (spec/43_jumps.md R124): by its length in every case of a meaning that commits
a successor, and the obligation that lists the others. -/

namespace Sys2Proof.Machine

/-- The successor of an instruction of length n is reached without wrapping, whatever else was committed with it. -/
theorem setIp_ipPlus_advances {s u : State} {i : Instr} {n : Nat} (h0 : 0 ≤ s.ip.toInt) (hroom : ipRoom s n)
    (hlen : i.len = n) (hstatus : u.status = s.status) (hkind : u.faultKind = s.faultKind) :
    (u.setIp (ipPlus s n)).status = s.status ∧ (u.setIp (ipPlus s n)).faultKind = s.faultKind ∧
      (u.setIp (ipPlus s n)).ip.toInt = s.ip.toInt + i.len := by
  rw [State.setIp_status, State.setIp_faultKind, State.setIp_ip, ipPlus_toInt h0 hroom, hlen]
  exact ⟨hstatus, hkind, rfl⟩

/-- Settles O48, by the cases of a meaning; the run loop goes on by its own rule. -/
theorem onlyJumpsLeaveTheSequence : Obligations.OnlyJumpsLeaveTheSequence := by
  refine ⟨fun s t i h0 h => ?_, fun s t fuel hrun hstep => runLoop_step fuel hrun hstep⟩
  cases exec_cases h with
  | fault k => exact .inr (.inr (.inr (.inr ⟨k, rfl⟩)))
  | stored p v _ _ hroom hparams =>
    exact .inl (setIp_ipPlus_advances h0 hroom (by rw [Instr.len, hparams]) rfl rfl)
  | suspended p1 u2 u3 hi _ _ hq => exact .inr (.inr (.inr (.inl ⟨p1, u2, u3, hi, hq, rfl⟩)))
  | took p1 u2 u3 v rest hi _ hroom _ => exact .inl (setIp_ipPlus_advances h0 hroom (by rw [hi]; rfl) rfl rfl)
  | emitted p1 u2 u3 v hi hroom => exact .inl (setIp_ipPlus_advances h0 hroom (by rw [hi]; rfl) rfl rfl)
  | rebased p1 u2 u3 b hi hroom => exact .inl (setIp_ipPlus_advances h0 hroom (by rw [hi]; rfl) rfl rfl)
  | jumped p1 p2 u3 htaken _ => exact .inr (.inl ⟨p1, p2, u3, htaken, rfl⟩)
  | fellThrough p1 p2 u3 hi hroom =>
    have hlen : i.len = 3 := by obtain rfl | rfl := hi <;> rfl
    exact .inl (setIp_ipPlus_advances h0 hroom hlen rfl rfl)
  | halted u1 u2 u3 hi => exact .inr (.inr (.inl ⟨u1, u2, u3, hi, rfl⟩))

end Sys2Proof.Machine
end

section
/-! The whole `Step` on the word of a comparison (spec/44_compare.md): LT and EQ are storing instructions too, and what
they store is the choice between 1 and 0 that the rules write out. -/

namespace Sys2Proof.Machine

/-- `aluLt` in the words of R130. -/
theorem aluLt_eq_ite (a b : Word) : aluLt a b = if a.toInt < b.toInt then 1 else 0 := by
  split
  case isTrue h => exact aluLt_of_lt h
  case isFalse h => exact aluLt_of_not_lt h

/-- `aluEq` in the words of R131: it compares the integers the Words stand for. -/
theorem aluEq_eq_ite (a b : Word) : aluEq a b = if a.toInt = b.toInt then 1 else 0 := by
  split
  case isTrue h => rw [BitVec.toInt_inj.1 h, aluEq_self]
  case isFalse h => exact aluEq_of_ne (mt (congrArg BitVec.toInt) h)

/-- LT resolves, stores and advances as ADD does; only its result differs. -/
theorem isStoring_lt : IsStoring .lt .lt aluLt :=
  ⟨fun _ _ _ => rfl, fun _ _ _ _ => rfl, fun _ _ _ _ => rfl⟩

/-- EQ resolves, stores and advances as ADD does; only its result differs. -/
theorem isStoring_eq : IsStoring .eq .eq aluEq :=
  ⟨fun _ _ _ => rfl, fun _ _ _ _ => rfl, fun _ _ _ _ => rfl⟩

/-- Settles O35: LT is a storing instruction, with the signed order of its operands as its result. -/
theorem stepOfLt : Obligations.StepOfLt := by
  have hresult : aluLt = fun a b => if a.toInt < b.toInt then 1 else 0 := funext₂ aluLt_eq_ite
  rw [Obligations.StepOfLt, ← hresult]
  exact isStoring_lt.storeRule

/-- Settles O36: EQ is a storing instruction, with the equality of its operands as its result. -/
theorem stepOfEq : Obligations.StepOfEq := by
  have hresult : aluEq = fun a b => if a.toInt = b.toInt then 1 else 0 := funext₂ aluEq_eq_ite
  rw [Obligations.StepOfEq, ← hresult]
  exact isStoring_eq.storeRule

end Sys2Proof.Machine
end

section
/-! The relative base (spec/45_relative_base.md): the whole `Step` on the word of ARB (R140), and what `rb` reaches
(R141). The shared stages of an instruction are said once to commute with a change of `rb` while no parameter they
resolve is in relative mode. -/

namespace Sys2Proof.Machine

/-! ### The `Step` on the word of ARB -/

theorem hasOneParam_arb : HasOneParam .arb .arb (useOperand fun r s => s.setRb (rbAdd s.rb r)) :=
  ⟨fun _ _ _ _ => rfl, fun _ _ _ _ => rfl⟩

/-- Settles O39: ARB uses one operand, whose wrapped sum with the old `rb` is the new one. -/
theorem stepOfArb : Obligations.StepOfArb := hasOneParam_arb.operandRule fun _ _ _ => rfl

/-! ### What ignores `rb` -/

theorem fetch_setRb (s : State) (b : Word) : fetch (s.setRb b) = fetch s := fetch_congr rfl rfl

section
variable (s : State) (b : Word)

theorem State.setRb_store (a : Nat) (v : Word) : (s.store a v).setRb b = (s.setRb b).store a v := rfl

theorem State.setRb_setIp (a : Word) : (s.setIp a).setRb b = (s.setRb b).setIp a := rfl

theorem paramCells_setRb (n : Nat) : paramCells (s.setRb b) n = paramCells s n := rfl

theorem seqNext_setRb (len : Nat) : seqNext (s.setRb b) len = seqNext s len := rfl

variable {p p1 p2 p3 : Param}

theorem readOperand_setRb (h : p.mode ≠ .relative) : readOperand (s.setRb b) p = readOperand s p := by
  obtain ⟨m, r⟩ := p
  cases m with
  | position | immediate => rfl
  | relative => exact absurd rfl h

theorem writeAddr_setRb (h : p.mode ≠ .relative) : writeAddr (s.setRb b) p = writeAddr s p := by
  obtain ⟨m, r⟩ := p
  cases m with
  | position | immediate => rfl
  | relative => exact absurd rfl h

/-! ### The stages commute with a change of `rb` -/

theorem storeResult_setRb (f : Word → Word → Word) (h1 : p1.mode ≠ .relative) (h2 : p2.mode ≠ .relative)
    (h3 : p3.mode ≠ .relative) :
    storeResult f p1 p2 p3 (s.setRb b) = (·.setRb b) <$> storeResult f p1 p2 p3 s := by
  simp only [storeResult, paramCells_setRb, seqNext_setRb, readOperand_setRb s b h1, readOperand_setRb s b h2,
    writeAddr_setRb s b h3, map_bind, map_pure, State.setRb_setIp, State.setRb_store]

theorem takeInput_setRb (h1 : p1.mode ≠ .relative) :
    takeInput p1 (s.setRb b) = (·.setRb b) <$> takeInput p1 s := by
  simp only [takeInput, paramCells_setRb, seqNext_setRb, writeAddr_setRb s b h1, map_bind, State.setRb_inQ]
  cases s.inQ with
  | nil => rfl
  | cons v rest => rfl

theorem useOperand_setRb {g : Word → State → State} (hg : ∀ r, g r (s.setRb b) = (g r s).setRb b)
    (h1 : p1.mode ≠ .relative) : useOperand g p1 (s.setRb b) = (·.setRb b) <$> useOperand g p1 s := by
  simp only [useOperand, paramCells_setRb, seqNext_setRb, readOperand_setRb s b h1, map_bind, map_pure,
    State.setRb_setIp, hg]

theorem jumpWhen_setRb (taken : Word → Bool) (h1 : p1.mode ≠ .relative) (h2 : p2.mode ≠ .relative) :
    jumpWhen taken p1 p2 (s.setRb b) = (·.setRb b) <$> jumpWhen taken p1 p2 s := by
  simp only [jumpWhen, paramCells_setRb, seqNext_setRb, readOperand_setRb s b h1, readOperand_setRb s b h2,
    map_bind, map_pure, State.setRb_setIp, apply_ite (Functor.map fun t : State => t.setRb b)]

end

/-- The end of a step commutes with a change of `rb` when its stages do: a fault leaves `rb` alone. -/
theorem conclude_setRb {s t : State} {b : Word} {e e' : Except FaultKind State}
    (hstages : e' = (·.setRb b) <$> e) (h : conclude s e = .next t) :
    conclude (s.setRb b) e' = .next (t.setRb b) := by
  obtain rfl | ⟨k, rfl, rfl⟩ := conclude_cases h
  · exact congrArg _ hstages
  · exact congrArg _ hstages

/-- The meaning of an instruction that is not ARB and has no relative-mode parameter commutes with a change of `rb`. -/
theorem exec_setRb {s t : State} {i : Instr} (b : Word) (hmodes : ∀ p ∈ i.params, p.mode ≠ .relative)
    (harb : ¬ ∃ p1 u2 u3, i = .arb p1 u2 u3) (h : exec i s = .next t) :
    exec i (s.setRb b) = .next (t.setRb b) := by
  cases i with
  | add p1 p2 p3 | mul p1 p2 p3 | lt p1 p2 p3 | eq p1 p2 p3 =>
    simp only [Instr.params, List.forall_mem_cons] at hmodes
    obtain ⟨h1, h2, h3, -⟩ := hmodes
    exact conclude_setRb (storeResult_setRb s b _ h1 h2 h3) h
  | inp p1 u2 u3 =>
    exact conclude_setRb (takeInput_setRb s b (hmodes p1 (List.mem_singleton_self p1))) h
  | out p1 u2 u3 =>
    exact conclude_setRb (useOperand_setRb s b (fun _ => rfl) (hmodes p1 (List.mem_singleton_self p1))) h
  | jt p1 p2 u3 | jf p1 p2 u3 =>
    simp only [Instr.params, List.forall_mem_cons] at hmodes
    obtain ⟨h1, h2, -⟩ := hmodes
    exact conclude_setRb (jumpWhen_setRb s b _ h1 h2) h
  | arb p1 u2 u3 => exact absurd ⟨p1, u2, u3, rfl⟩ harb
  | hlt u1 u2 u3 => cases h; rfl

/-! ### What writes `rb`, and what a zero base does -/

/-- ARB alone writes `rb`. -/
theorem ExecCase.rb_eq_or_arb {i : Instr} {s t : State} (h : ExecCase i s t) :
    t.rb = s.rb ∨ ∃ p1 u2 u3, i = .arb p1 u2 u3 := by
  cases h with
  | rebased p1 u2 u3 b hi _ => exact .inr ⟨p1, u2, u3, hi⟩
  | fault | stored | suspended | took | emitted | jumped | fellThrough | halted => exact .inl rfl

theorem step_rb_eq_or_arb {s t : State} (hrun : s.status = .running) (hstep : step s = .next t) :
    t.rb = s.rb ∨ ∃ p1 u2 u3, fetch s = .ok (.arb p1 u2 u3) := by
  obtain ⟨k, -, rfl⟩ | ⟨i, hfetch, hcase⟩ := step_cases hrun hstep
  · exact .inl rfl
  · refine hcase.rb_eq_or_arb.imp_right ?_
    rintro ⟨p1, u2, u3, rfl⟩
    exact ⟨p1, u2, u3, hfetch⟩

section
variable {s : State} (hrb : s.rb = 0) (r : Word)
include hrb

/-- A zero base leaves the raw parameter as the address. -/
theorem toInt_add_rb_of_rb_zero : r.toInt + s.rb.toInt = r.toInt := by
  simp [hrb]

theorem readOperand_relative_of_rb_zero : readOperand s ⟨.relative, r⟩ = readOperand s ⟨.position, r⟩ :=
  congrArg (memRead s.mem) (toInt_add_rb_of_rb_zero hrb r)

theorem writeAddr_relative_of_rb_zero : writeAddr s ⟨.relative, r⟩ = writeAddr s ⟨.position, r⟩ :=
  congrArg checkAddr (toInt_add_rb_of_rb_zero hrb r)

end

/-- Settles O49, clause by clause: the fetch, the meanings, `Reset`, the step, and the zero base. -/
theorem relativeBaseReachesOnlyRelativeParameters : Obligations.RelativeBaseReachesOnlyRelativeParameters :=
  ⟨fetch_setRb, fun _ _ _ b hmodes harb h => exec_setRb b hmodes harb h, State.load_rb,
    fun _ _ hrun hstep => step_rb_eq_or_arb hrun hstep,
    fun _ r hrb => ⟨readOperand_relative_of_rb_zero hrb r, writeAddr_relative_of_rb_zero hrb r⟩⟩

end Sys2Proof.Machine
end

section
/-! The whole `Step` on the word of HLT (spec/46_halt.md R145): the fetch of an instruction that reads no parameter cell,
which succeeds wherever `ip` points, and the obligation that states the rule. -/

namespace Sys2Proof.Machine

/-- The fetch of an instruction without parameters asks for no cell after its word, so the end of memory cannot fault
it. -/
theorem fetch_no_params {s : State} {hd : Header} {i : Instr} (h0 : 0 ≤ s.ip.toInt)
    (hword : decodeWord (s.cell s.ip.toInt.toNat) = .ok hd) (hwrite : hd.writeMode ≠ some .immediate)
    (hbuild : ∀ cells, assemble hd cells = .ok (i, cells)) : fetch s = .ok i := by
  obtain ⟨m, -, hcells⟩ := cellsFrom_ip h0
  rw [fetch_of_nonneg h0, hcells, decode_cons_of_ok _ hword hwrite, hbuild]

/-- Legal digits of a word with opcode 99 are those of a HLT, which has no write parameter to check. -/
theorem fetch_hlt_of_digitsLegal {s : State} (hex : executing s Opcode.hlt.number) (hlegal : digitsLegal s) :
    ∃ u1 u2 u3, fetch s = .ok (.hlt u1 u2 u3) := by
  have ⟨_, h0, _⟩ := hex
  obtain ⟨m1, m2, m3, hword, -⟩ := decodeWord_of_digitsLegal hex hlegal
  exact ⟨m1, m2, m3, fetch_no_params h0 hword nofun fun _ => rfl⟩

theorem exec_hlt (u1 u2 u3 : Mode) (s : State) : exec (.hlt u1 u2 u3) s = .next (s.setStatus .halted) := rfl

/-- Settles O42: an illegal digit is `Decode`'s fault, and otherwise the fetch gives a HLT, whose meaning writes the
status alone. -/
theorem stepOfHlt : Obligations.StepOfHlt := by
  intro s hex
  refine ⟨step_of_illegal_digits (op := .hlt) hex, fun hlegal => ?halts⟩
  case halts =>
    have ⟨hrun, _⟩ := hex
    obtain ⟨u1, u2, u3, hfetch⟩ := fetch_hlt_of_digitsLegal hex hlegal
    rw [step_of_fetch_ok hrun hfetch, exec_hlt]

end Sys2Proof.Machine
end

section
/-! The encoder and the decoder undo one another (spec/30_encoding.md R60 to R62, R76): first the instruction word and
its header, then the parameter cells, then the whole encoding; and the obligations that state the round trips. -/

namespace Sys2Proof

/-! ### The instruction word -/

/-- An instruction word has five digits, so it is its own value (R76). -/
theorem encodeWord_toNat (h : Header) : (encodeWord h).toNat =
    h.op.number + 100 * h.m1.digit + 1000 * h.m2.digit + 10000 * h.m3.digit := by
  have hop := h.op.number_lt
  have h1 := h.m1.digit_le
  have h2 := h.m2.digit_le
  have h3 := h.m3.digit_le
  rw [encodeWord, BitVec.toNat_ofNat]
  exact Nat.mod_eq_of_lt (by unfold Config.wordBits; omega)

theorem encodeWord_toInt (h : Header) : (encodeWord h).toInt =
    h.op.number + 100 * h.m1.digit + 1000 * h.m2.digit + 10000 * h.m3.digit := by
  have hnat := encodeWord_toNat h
  have hop := h.op.number_lt
  have h1 := h.m1.digit_le
  have h2 := h.m2.digit_le
  have h3 := h.m3.digit_le
  rw [BitVec.toInt_eq_toNat_of_lt (by unfold Config.wordBits; omega), hnat]
  norm_cast

theorem encodeWord_nonneg (h : Header) : 0 ≤ (encodeWord h).toInt := by
  rw [encodeWord_toInt]
  omega

/-- Each test of `Decode` reads the digit that the encoder put in its place. -/
theorem decodeWord_encodeWord (h : Header) : decodeWord (encodeWord h) = .ok h := by
  have hnat := encodeWord_toNat h
  have hop := h.op.number_lt
  have h1 := h.m1.digit_le
  have h2 := h.m2.digit_le
  have h3 := h.m3.digit_le
  have hopcode : (encodeWord h).toNat % 100 = h.op.number := by omega
  have hdigit2 : digit (encodeWord h).toNat 2 = h.m1.digit := by unfold digit; omega
  have hdigit3 : digit (encodeWord h).toNat 3 = h.m2.digit := by unfold digit; omega
  have hdigit4 : digit (encodeWord h).toNat 4 = h.m3.digit := by unfold digit; omega
  have hhigh : (encodeWord h).toNat / 100000 = 0 := by omega
  rw [decodeWord_of_modes (encodeWord_nonneg h) (hopcode ▸ opcodeOf_number h.op)
    (hdigit2 ▸ modeOf_digit h.m1) (hdigit3 ▸ modeOf_digit h.m2) (hdigit4 ▸ modeOf_digit h.m3),
    if_neg (not_not.2 hhigh)]

/-- A word that `Decode` accepts is the sum of what it returns: every other exit of `Decode` is a fault. -/
theorem toInt_of_decodeWord {w : Word} {h : Header} (hw : decodeWord w = .ok h) :
    w.toInt = h.op.number + 100 * h.m1.digit + 1000 * h.m2.digit + 10000 * h.m3.digit := by
  obtain ⟨hneg, hunknown, hbadMode, hhighDigits, haccepted⟩ := decodeTestsInOrder w
  have hok (k : FaultKind) : decodeWord w ≠ .error k := by rw [hw]; nofun
  have h0 : 0 ≤ w.toInt := not_lt.1 (mt hneg (hok _))
  have hknown := not_not.1 (mt (hunknown h0) (hok _))
  have hgood := mt (hbadMode h0 hknown) (hok _)
  have hhigh := not_not.1 (mt (hhighDigits h0 hknown hgood) (hok _))
  obtain ⟨h', hw', hop, h1, h2, h3⟩ := haccepted h0 hknown hgood hhigh
  obtain rfl : h' = h := Except.ok.inj (hw'.symm.trans hw)
  omega

theorem eq_encodeWord_of_decodeWord {w : Word} {h : Header} (hw : decodeWord w = .ok h) : w = encodeWord h := by
  rw [← BitVec.toInt_inj, toInt_of_decodeWord hw, encodeWord_toInt]

/-- Settles O13: the digits of the sum are its terms, and a word with legal digits is the sum of them. -/
theorem instructionWordRoundTrip : Obligations.InstructionWordRoundTrip :=
  ⟨decodeWord_encodeWord, fun _ _ => toInt_of_decodeWord⟩

/-! ### The parameter cells -/

/-- The cells after an instruction's word are put together to the instruction. -/
theorem assemble_header (i : Instr) (rest : List Word) :
    assemble i.header (i.params.map Param.raw ++ rest) = .ok (i, rest) := by
  cases i <;> rfl

section
variable {cells rest : List Word} {i : Instr}

theorem take1_ok {build : Word → Instr} (h : take1 build cells = .ok (i, rest)) :
    ∃ a, cells = a :: rest ∧ i = build a := by
  cases cells with
  | nil => cases h
  | cons a cells => cases h; exact ⟨a, rfl, rfl⟩

theorem take2_ok {build : Word → Word → Instr} (h : take2 build cells = .ok (i, rest)) :
    ∃ a b, cells = a :: b :: rest ∧ i = build a b := by
  cases cells with
  | nil => cases h
  | cons a cells =>
    obtain ⟨b, rfl, rfl⟩ := take1_ok h
    exact ⟨a, b, rfl, rfl⟩

theorem take3_ok {build : Word → Word → Word → Instr} (h : take3 build cells = .ok (i, rest)) :
    ∃ a b c, cells = a :: b :: c :: rest ∧ i = build a b c := by
  cases cells with
  | nil => cases h
  | cons a cells =>
    obtain ⟨b, c, rfl, rfl⟩ := take2_ok h
    exact ⟨a, b, c, rfl, rfl⟩

/-- What is put together has the header it was put together from, and its raw parameters are the cells taken. -/
theorem assemble_ok {hd : Header} (h : assemble hd cells = .ok (i, rest)) :
    i.header = hd ∧ i.params.map Param.raw ++ rest = cells := by
  obtain ⟨op, m1, m2, m3⟩ := hd
  cases op with
  | add | mul | lt | eq => obtain ⟨a, b, c, rfl, rfl⟩ := take3_ok h; exact ⟨rfl, rfl⟩
  | jt | jf => obtain ⟨a, b, rfl, rfl⟩ := take2_ok h; exact ⟨rfl, rfl⟩
  | inp | out | arb => obtain ⟨a, rfl, rfl⟩ := take1_ok h; exact ⟨rfl, rfl⟩
  | hlt => cases h; exact ⟨rfl, rfl⟩

/-! ### The whole encoding -/

/-- The two tests of a word whose cells decode, and the cells after it. -/
theorem decode_ok (h : decode cells = .ok (i, rest)) : ∃ w params hd, cells = w :: params ∧
    decodeWord w = .ok hd ∧ hd.writeMode ≠ some .immediate ∧ assemble hd params = .ok (i, rest) := by
  cases cells with
  | nil => cases h
  | cons w params =>
    cases hw : decodeWord w with
    | error k => rw [decode_cons_of_error params hw] at h; cases h
    | ok hd =>
      by_cases hwrite : hd.writeMode = some .immediate
      · rw [decode_cons_of_immediate_write params hw hwrite] at h; cases h
      · exact ⟨w, params, hd, rfl, hw, hwrite, decode_cons_of_ok params hw hwrite ▸ h⟩

end

/-- Settles O11: the word gives back the header, which passes `CheckWriteMode` as the instruction is well-formed, and
the header and the cells give back the instruction. -/
theorem decodeOfEncode : Obligations.DecodeOfEncode := by
  intro i rest hwf
  rw [encode, List.cons_append,
    decode_cons_of_ok _ (decodeWord_encodeWord i.header) ((wf_iff_writeMode i).1 hwf), assemble_header]

/-- Settles O12: an accepted word is the encoding of its header, and the parameter cells are taken as they stand. -/
theorem encodeOfDecode : Obligations.EncodeOfDecode := by
  intro cells rest i h
  obtain ⟨w, params, hd, rfl, hw, hwrite, hassemble⟩ := decode_ok h
  obtain ⟨rfl, hparams⟩ := assemble_ok hassemble
  refine ⟨(wf_iff_writeMode i).2 hwrite, ?_⟩
  rw [encode, List.cons_append, hparams, eq_encodeWord_of_decodeWord hw]

/-! ### The legal instruction words -/

/-- The ten opcodes (R65). -/
def allOpcodes : List Opcode := [.add, .mul, .inp, .out, .jt, .jf, .lt, .eq, .arb, .hlt]

/-- The three modes (R66). -/
def allModes : List Mode := [.position, .immediate, .relative]

/-- Every header: ten opcodes and three digits for each of three modes. -/
def allHeaders : List Header :=
  (allOpcodes ×ˢ allModes ×ˢ allModes ×ˢ allModes).map fun x => ⟨x.1, x.2.1, x.2.2.1, x.2.2.2⟩

/-- The headers that pass `CheckWriteMode` (R67). -/
def legalHeaders : List Header := allHeaders.filter fun h => h.writeMode ≠ some .immediate

theorem mem_allHeaders (h : Header) : h ∈ allHeaders := by
  have hop : ∀ op, op ∈ allOpcodes := by intro op; cases op <;> decide
  have hmode : ∀ m, m ∈ allModes := by intro m; cases m <;> decide
  refine List.mem_map.2 ⟨(h.op, h.m1, h.m2, h.m3), ?_, rfl⟩
  simp [hop, hmode]

theorem allHeaders_nodup : allHeaders.Nodup := by
  have hop : allOpcodes.Nodup := by decide
  have hmode : allModes.Nodup := by decide
  refine List.Nodup.map ?_ (hop.product (hmode.product (hmode.product hmode)))
  rintro ⟨op, m1, m2, m3⟩ ⟨op', m1', m2', m3'⟩ h
  cases h
  rfl

theorem mem_legalHeaders {h : Header} : h ∈ legalHeaders ↔ h.writeMode ≠ some .immediate := by
  simp [legalHeaders, mem_allHeaders]

theorem legalHeaders_length : legalHeaders.length = 225 := by decide +kernel

/-- The decoder tells the encoded words of different headers apart. -/
theorem encodeWord_injective : Function.Injective encodeWord := fun h h' heq =>
  Except.ok.inj ((decodeWord_encodeWord h).symm.trans (heq ▸ decodeWord_encodeWord h'))

theorem checkWriteMode_ok_iff {h : Header} : checkWriteMode h = .ok h ↔ h.writeMode ≠ some .immediate := by
  by_cases hw : h.writeMode = some .immediate <;> simp [checkWriteMode, hw]

/-- The encoded words of legal headers are the words that pass both checks. -/
theorem mem_legalWords {w : Word} : w ∈ legalHeaders.map encodeWord ↔
    ∃ h, decodeWord w = .ok h ∧ checkWriteMode h = .ok h := by
  rw [List.mem_map]
  constructor
  · rintro ⟨h, hlegal, rfl⟩
    exact ⟨h, decodeWord_encodeWord h, checkWriteMode_ok_iff.2 (mem_legalHeaders.1 hlegal)⟩
  · rintro ⟨h, hw, hcheck⟩
    exact ⟨h, mem_legalHeaders.2 (checkWriteMode_ok_iff.1 hcheck), (eq_encodeWord_of_decodeWord hw).symm⟩

/-- The largest sum is 99 + 100 * 2 + 1000 * 2 + 10000 * 2. -/
theorem encodeWord_le (h : Header) : (encodeWord h).toInt ≤ 22299 := by
  have hop := h.op.number_lt
  have h1 := h.m1.digit_le
  have h2 := h.m2.digit_le
  have h3 := h.m3.digit_le
  rw [encodeWord_toInt]
  omega

/-- Settles O17: the legal words are the encoded words of the legal headers, of which there are 225. -/
theorem legalWordsAreFew : Obligations.LegalWordsAreFew := by
  refine ⟨legalHeaders.map encodeWord, ?distinct, ?count, ?largest, fun w => mem_legalWords, ?bounds⟩
  case distinct => exact (allHeaders_nodup.filter _).map encodeWord_injective
  case count => rw [List.length_map, legalHeaders_length]
  case largest => exact mem_legalWords.2 ⟨⟨.hlt, .relative, .relative, .relative⟩, rfl, rfl⟩
  case bounds =>
    intro w hw
    obtain ⟨h, -, rfl⟩ := List.mem_map.1 hw
    exact ⟨encodeWord_nonneg h, encodeWord_le h⟩

end Sys2Proof
end

section
/-! The list of cells as the total function of the rules (spec/20_memory.md section 1): a fold of writes follows the
fold of function updates, a canonical list is determined by what it reads as, and cells stored one after another are
read back. With the obligations that state the first two. -/

namespace Sys2Proof.Machine

/-! ### A list of writes -/

/-- After a write the list reads as the old one updated at the address. -/
theorem Memory.read_write {m : Memory} (hm : m.wf) (a : Nat) (v : Word) (b : Nat) :
    (m.write a v).read b = if b = a then v else m.read b := by
  split
  case isTrue h => rw [h, Memory.read_write_same hm]
  case isFalse h => exact Memory.read_write_other v m h

/-- Writes at addresses, done to a canonical list and to the function it reads as, keep the two together. -/
theorem Memory.foldl_write {writes : List (Nat × Word)} {m : Memory} {g : Nat → Word}
    (haddr : ∀ p ∈ writes, isAddr (p.1 : Int)) (hm : m.wf) (hread : ∀ a, m.read a = g a) :
    Memory.wf (writes.foldl (fun m p => Memory.write m p.1 p.2) m) ∧
      ∀ a, Memory.read (writes.foldl (fun m p => Memory.write m p.1 p.2) m) a =
        writes.foldl (fun (g : Nat → Word) p b => if b = p.1 then p.2 else g b) g a := by
  induction writes generalizing m g with
  | nil => exact ⟨hm, hread⟩
  | cons p writes ih =>
    obtain ⟨⟨-, hp⟩, haddr⟩ := List.forall_mem_cons.1 haddr
    refine ih haddr (Memory.wf_write hm hp p.2) fun a => ?_
    rw [Memory.read_write hm, hread]

/-- Settles O18: the empty list is canonical and reads as 0 everywhere, and the writes keep the two together. -/
theorem memoryIsTotalFunction : Obligations.MemoryIsTotalFunction := by
  intro writes haddr m g
  exact Memory.foldl_write haddr Memory.wf_nil fun _ => rfl

/-! ### Equal contents -/

theorem Memory.read_head (c : Nat × Word) (m : Memory) : Memory.read (c :: m) c.1 = c.2 := if_pos rfl

/-- What a canonical list lists lies from its first entry upward, so only there can it read as listed. -/
theorem Memory.head_le_of_read {c : Nat × Word} {m : Memory} (h : Memory.wf (c :: m)) {a : Nat}
    (ha : Memory.read (c :: m) a ≠ Memory.unlisted) : c.1 ≤ a := by
  have hlt : ∀ d ∈ m, c.1 < d.1 := (List.pairwise_cons.1 h.1).1
  by_contra hac
  refine ha (Memory.read_below (List.forall_mem_cons.2 ⟨Nat.not_le.1 hac, fun d hd => ?_⟩))
  exact Nat.lt_trans (Nat.not_le.1 hac) (hlt d hd)

theorem Memory.head_ne_unlisted {c : Nat × Word} {m : Memory} (h : Memory.wf (c :: m)) :
    c.2 ≠ Memory.unlisted := (h.2 c List.mem_cons_self).1

/-- The tail of a canonical list reads as unlisted at the head's address, and as the whole list elsewhere. -/
theorem Memory.read_tail {c : Nat × Word} {m : Memory} (h : Memory.wf (c :: m)) (a : Nat) :
    m.read a = if a = c.1 then Memory.unlisted else Memory.read (c :: m) a := by
  split
  case isTrue hac => exact Memory.read_below (hac ▸ (List.pairwise_cons.1 h.1).1)
  case isFalse hac => exact (if_neg hac).symm

/-- A canonical list that reads as unlisted everywhere is empty. -/
theorem Memory.eq_nil_of_read {m : Memory} (hm : m.wf) (h : ∀ a, m.read a = Memory.unlisted) : m = [] := by
  cases m with
  | nil => rfl
  | cons c m => exact absurd ((Memory.read_head c m).symm.trans (h c.1)) (Memory.head_ne_unlisted hm)

/-- Lists that read alike have the same first entry. -/
theorem Memory.head_eq_of_read {c d : Nat × Word} {m n : Memory} (hm : Memory.wf (c :: m))
    (hn : Memory.wf (d :: n)) (h : ∀ a, Memory.read (c :: m) a = Memory.read (d :: n) a) : c = d := by
  have hdc : d.1 ≤ c.1 := by
    apply Memory.head_le_of_read hn
    rw [← h, Memory.read_head]
    exact Memory.head_ne_unlisted hm
  have hcd : c.1 ≤ d.1 := by
    apply Memory.head_le_of_read hm
    rw [h, Memory.read_head]
    exact Memory.head_ne_unlisted hn
  have haddr : c.1 = d.1 := Nat.le_antisymm hcd hdc
  have hvalue : c.2 = d.2 := by rw [← Memory.read_head c m, h, haddr, Memory.read_head]
  exact Prod.ext haddr hvalue

/-- Settles O20, entry by entry: the first entries agree, and so do the contents of what follows. -/
theorem canonicalMemoriesAreEqual : Obligations.CanonicalMemoriesAreEqual := by
  intro m
  induction m with
  | nil => exact fun n _ hn h => (Memory.eq_nil_of_read hn fun a => (h a).symm).symm
  | cons c m ih =>
    intro n hm hn h
    cases n with
    | nil => exact Memory.eq_nil_of_read hm h
    | cons d n =>
      obtain rfl : c = d := Memory.head_eq_of_read hm hn h
      have htail : m = n := by
        refine ih n (Memory.wf_tail hm) (Memory.wf_tail hn) fun a => ?_
        rw [Memory.read_tail hm, Memory.read_tail hn, h]
      rw [htail]

/-! ### Cells stored one after another -/

theorem Memory.read_writeAll_below {m : Memory} {a b : Nat} (vs : List Word) (h : b < a) :
    (Memory.writeAll m a vs).read b = m.read b := by
  induction vs generalizing m a with
  | nil => rfl
  | cons v vs ih =>
    rw [Memory.writeAll, ih (by omega)]
    split
    · exact Memory.read_write_other v m (Nat.ne_of_lt h)
    · rfl

/-- Every cell stored at an address is read back: the later ones lie above it. -/
theorem Memory.read_writeAll {m : Memory} (hm : m.wf) {a k : Nat} {vs : List Word} (hk : k < vs.length)
    (ha : ((a + k : Nat) : Int) ≤ Config.wordMax) : (Memory.writeAll m a vs).read (a + k) = vs[k] := by
  induction vs generalizing m a k with
  | nil => nomatch hk
  | cons v vs ih =>
    have hbase : (a : Int) ≤ Config.wordMax := by omega
    rw [Memory.writeAll, if_pos hbase]
    cases k with
    | zero => rw [Memory.read_writeAll_below vs (by omega)]; exact Memory.read_write_same hm a v
    | succ k =>
      have hnext : a + (k + 1) = a + 1 + k := by omega
      rw [hnext] at ha ⊢
      exact ih (Memory.wf_write hm hbase v) (Nat.lt_of_succ_lt_succ hk) ha

end Sys2Proof.Machine
end

section
/-! Which instruction a step runs (spec/40_stepping_engine.md section 1): the one the cells at `ip` decode to, hence any
well-formed one encoded there and the one the host places there. And what a fetched instruction says of the word at
`ip`. -/

namespace Sys2Proof.Machine

/-- Settles O10: each of the other four statuses is an arm of `step` that answers the state. -/
theorem stepIsIdleUnlessRunning : Obligations.StepIsIdleUnlessRunning := by
  intro s hs
  unfold step
  split
  case h_1 hrun => exact absurd hrun hs
  all_goals rfl

section
variable {s : State}

theorem fetch_of_decode_ok (h0 : 0 ≤ s.ip.toInt) {i : Instr} {rest : List Word}
    (h : decode (cellsFrom s s.ip.toInt.toNat) = .ok (i, rest)) : fetch s = .ok i := by
  rw [fetch_of_nonneg h0, h]

theorem fetch_of_decode_error (h0 : 0 ≤ s.ip.toInt) {k : FaultKind}
    (h : decode (cellsFrom s s.ip.toInt.toNat) = .error k) : fetch s = .error k := by
  rw [fetch_of_nonneg h0, h]

theorem decode_of_fetch_ok (h0 : 0 ≤ s.ip.toInt) {i : Instr} (h : fetch s = .ok i) :
    ∃ rest, decode (cellsFrom s s.ip.toInt.toNat) = .ok (i, rest) := by
  cases hd : decode (cellsFrom s s.ip.toInt.toNat) with
  | error k => rw [fetch_of_decode_error h0 hd] at h; cases h
  | ok x =>
    obtain ⟨j, rest⟩ := x
    rw [fetch_of_decode_ok h0 hd] at h
    cases h
    exact ⟨rest, rfl⟩

/-- Settles O7: the fetch is the decoder on the cells at `ip`. -/
theorem stepRunsDecodedInstruction : Obligations.StepRunsDecodedInstruction := fun _ hrun h0 =>
  ⟨fun _ _ h => step_of_fetch_ok hrun (fetch_of_decode_ok h0 h),
    fun _ h => step_of_fetch_error hrun (fetch_of_decode_error h0 h)⟩

/-! ### An encoded instruction -/

/-- The fetch reads the cell `k` after `ip` wherever there is room for it, up to the fourth. -/
theorem cellsFrom_getElem? (h0 : 0 ≤ s.ip.toInt) {k : Nat} (hk : k ≤ 3) (hroom : ipRoom s k) :
    (cellsFrom s s.ip.toInt.toNat)[k]? = some (s.cell (s.ip.toInt.toNat + k)) := by
  obtain ⟨m, hm, hcells⟩ := cellsFrom_ip h0
  rw [hcells]
  cases k with
  | zero => rfl
  | succ k =>
    have hkm : k < m := (hm (k + 1) hk).1 hroom
    simp [hkm, rawParam]

theorem instrLen_le (i : Instr) : i.len ≤ 4 := Nat.add_le_add_left i.header.op.nparams_le 1

/-- The cells read begin with an encoding that stands at `ip`. -/
theorem cellsFrom_eq_encode_append (h0 : 0 ≤ s.ip.toInt) {i : Instr} (hroom : ipRoom s (i.len - 1))
    (hcells : ∀ k, k < i.len → (encode i)[k]? = some (s.cell (s.ip.toInt.toNat + k))) :
    cellsFrom s s.ip.toInt.toNat = encode i ++ (cellsFrom s s.ip.toInt.toNat).drop i.len := by
  have hlen := instrLen_le i
  have htake : (cellsFrom s s.ip.toInt.toNat).take i.len = encode i := by
    refine List.ext_getElem? fun k => ?_
    rw [List.getElem?_take]
    split
    case isTrue hk =>
      rw [hcells k hk, cellsFrom_getElem? h0 (by omega) (hroom.mono (by omega))]
    case isFalse hk =>
      rw [List.getElem?_eq_none (by rw [encode_length]; omega)]
  rw [← htake, List.take_append_drop]

/-- Settles O8: the cells read are the encoding and some others, which decode to the instruction. -/
theorem encodedInstructionIsRun : Obligations.EncodedInstructionIsRun := by
  intro s i hrun h0 hwf hroom hcells
  have hdecode := congrArg decode (cellsFrom_eq_encode_append h0 hroom hcells)
  exact step_of_fetch_ok hrun (fetch_of_decode_ok h0 (hdecode.trans (decodeOfEncode i _ hwf)))

end

/-! ### A placed instruction -/

theorem decode_tableCells {nbits w : Nat} {i : Instr} (h : decodeTableWord nbits w = some i) :
    ∃ rest, decode (tableCells nbits w) = .ok (i, rest) := by
  unfold decodeTableWord at h
  split at h
  next j rest hd => cases h; exact ⟨rest, hd⟩
  next => cases h

theorem tableCells_length (nbits w : Nat) : (tableCells nbits w).length = 4 := by
  rw [tableCells, List.length_map, List.length_range]

section
variable {s : State} (nbits w : Nat) (h0 : 0 ≤ s.ip.toInt) (hroom : ipRoom s 3)
include h0 hroom

/-- With room for four cells the fetch reads four. -/
theorem cellsFrom_of_room :
    cellsFrom s s.ip.toInt.toNat = (List.range 4).map fun k => s.cell (s.ip.toInt.toNat + k) := by
  obtain ⟨hend, -⟩ | ⟨-, hend, -⟩ | ⟨-, hend, -⟩ | ⟨-, hcells⟩ :=
    cellsFrom_cases s (ip_isAddr h0).toNat_le
  · unfold ipRoom at hroom; omega
  · unfold ipRoom at hroom; omega
  · unfold ipRoom at hroom; omega
  · exact hcells

theorem cell_withFetchWord (hm : s.mem.wf) {k : Nat} (hk : k < (tableCells nbits w).length) :
    (s.withFetchWord nbits w).cell (s.ip.toInt.toNat + k) = (tableCells nbits w)[k] := by
  have hip : s.ip.toNat = s.ip.toInt.toNat := by have := Word.toNat_of_nonneg h0; omega
  have hk4 : k < 4 := tableCells_length nbits w ▸ hk
  rw [State.cell, State.withFetchWord_mem, hip]
  exact Memory.read_writeAll hm hk (by unfold ipRoom at hroom; omega)

/-- The fetch after a placing reads the four cells placed. -/
theorem cellsFrom_withFetchWord (hm : s.mem.wf) :
    cellsFrom (s.withFetchWord nbits w) (s.withFetchWord nbits w).ip.toInt.toNat = tableCells nbits w := by
  have hip := State.withFetchWord_ip s nbits w
  rw [cellsFrom_of_room (by rwa [hip]) (by unfold ipRoom; rw [hip]; exact hroom), hip]
  refine List.ext_getElem (by rw [tableCells_length]; rfl) fun k _ hk => ?_
  rw [List.getElem_map, List.getElem_range, cell_withFetchWord nbits w h0 hroom hm hk]

end

/-- Settles O9: the fetch after a placing reads the cells placed, which decode to the instruction. -/
theorem placedInstructionIsRun : Obligations.PlacedInstructionIsRun := by
  intro s nbits w i h0 hroom hm hi
  obtain ⟨rest, hdecode⟩ := decode_tableCells hi
  have hip := State.withFetchWord_ip s nbits w
  have hcells := cellsFrom_withFetchWord nbits w h0 hroom hm
  exact step_of_fetch_ok (State.withFetchWord_status s nbits w)
    (fetch_of_decode_ok (by rwa [hip]) ((congrArg decode hcells).trans hdecode))

/-! ### The word at `ip` -/

/-- The word at `ip` carries the opcode of the instruction fetched. -/
theorem instrWord_mod_of_fetch {s : State} {i : Instr} (h0 : 0 ≤ s.ip.toInt) (h : fetch s = .ok i) :
    instrWord s % 100 = i.header.op.number := by
  obtain ⟨rest, hdecode⟩ := decode_of_fetch_ok h0 h
  obtain ⟨-, hencode⟩ := encodeOfDecode _ _ _ hdecode
  obtain ⟨m, -, hcells⟩ := cellsFrom_ip h0
  obtain ⟨hword, -⟩ := List.cons.inj (hencode.trans hcells)
  have hop := i.header.op.number_lt
  rw [instrWord, ← hword, encodeWord_toInt]
  omega

end Sys2Proof.Machine
end

section
/-! What a step of a running core can end in (spec/40_stepping_engine.md section 4): which cases of a meaning leave it
running, suspend, halt or fault it, what a fault leaves alone (R171), and what a step writes (R164). -/

namespace Sys2Proof.Machine

/-- The four ways a meaning ends, seen from a running core, with what each says of the instruction. -/
theorem ExecCase.ending {i : Instr} {s t : State} (h : ExecCase i s t) (hrun : s.status = .running) :
    (t.status = .running ∧ t.faultKind = s.faultKind ∧ ∀ u1 u2 u3, i ≠ .hlt u1 u2 u3) ∨
    (∃ k, t = raise k s) ∨
    (t = s.setStatus .awaitingInput ∧ s.inQ = [] ∧
      ∃ p1 u2 u3, i = .inp p1 u2 u3 ∧ canWrite s p1 ∧ ipRoom s 2) ∨
    (t = s.setStatus .halted ∧ ∃ u1 u2 u3, i = .hlt u1 u2 u3) := by
  cases h with
  | fault k => exact .inr (.inl ⟨k, rfl⟩)
  | stored p v hwrite _ _ _ => exact .inl ⟨hrun, rfl, by rintro u1 u2 u3 rfl; cases hwrite⟩
  | suspended p1 u2 u3 hi hcan hroom hq => exact .inr (.inr (.inl ⟨rfl, hq, p1, u2, u3, hi, hcan, hroom⟩))
  | took p1 u2 u3 v rest hi _ _ _ => exact .inl ⟨hrun, rfl, by rw [hi]; nofun⟩
  | emitted p1 u2 u3 v hi _ => exact .inl ⟨hrun, rfl, by rw [hi]; nofun⟩
  | rebased p1 u2 u3 b hi _ => exact .inl ⟨hrun, rfl, by rw [hi]; nofun⟩
  | jumped p1 p2 u3 htaken _ =>
    refine .inl ⟨hrun, rfl, ?_⟩
    obtain ⟨rfl, -⟩ | ⟨rfl, -⟩ := htaken <;> nofun
  | fellThrough p1 p2 u3 hi _ =>
    refine .inl ⟨hrun, rfl, ?_⟩
    obtain rfl | rfl := hi <;> nofun
  | halted u1 u2 u3 hi => exact .inr (.inr (.inr ⟨rfl, u1, u2, u3, hi⟩))

section
variable {s t : State} (hrun : s.status = .running) (hstep : step s = .next t)
include hrun hstep

/-- The four ways a step of a running core ends. -/
theorem step_ending :
    (t.status = .running ∧ t.faultKind = s.faultKind ∧
      ∃ i, fetch s = .ok i ∧ ∀ u1 u2 u3, i ≠ .hlt u1 u2 u3) ∨
    (∃ k, t = raise k s) ∨
    (t = s.setStatus .awaitingInput ∧ s.inQ = [] ∧ atInput s) ∨
    (t = s.setStatus .halted ∧ atHalt s) := by
  obtain ⟨k, -, rfl⟩ | ⟨i, hfetch, hcase⟩ := step_cases hrun hstep
  · exact .inr (.inl ⟨k, rfl⟩)
  · obtain ⟨hs, hk, hne⟩ | hfault | ⟨ht, hq, p1, u2, u3, rfl, hres⟩ | ⟨ht, u1, u2, u3, rfl⟩ := hcase.ending hrun
    · exact .inl ⟨hs, hk, i, hfetch, hne⟩
    · exact .inr (.inl hfault)
    · exact .inr (.inr (.inl ⟨ht, hq, p1, u2, u3, hfetch, hres⟩))
    · exact .inr (.inr (.inr ⟨ht, u1, u2, u3, hfetch⟩))

theorem step_faulted (hfault : t.status = .faulted) : ∃ k, t = raise k s := by
  obtain ⟨hs, -⟩ | hraise | ⟨rfl, -⟩ | ⟨rfl, -⟩ := step_ending hrun hstep
  · cases hs.symm.trans hfault
  · exact hraise
  · cases hfault
  · cases hfault

theorem step_suspended (hwait : t.status = .awaitingInput) : t = s.setStatus .awaitingInput ∧ s.inQ = [] := by
  obtain ⟨hs, -⟩ | ⟨k, rfl⟩ | ⟨ht, hq, -⟩ | ⟨rfl, -⟩ := step_ending hrun hstep
  · cases hs.symm.trans hwait
  · cases hwait
  · exact ⟨ht, hq⟩
  · cases hwait

/-- A step leads to any status but Ready. -/
theorem step_not_ready : t.status ≠ .ready := by
  obtain ⟨hs, -⟩ | ⟨k, rfl⟩ | ⟨rfl, -⟩ | ⟨rfl, -⟩ := step_ending hrun hstep
  · rw [hs]; nofun
  · nofun
  · nofun
  · nofun

end

/-- Settles O45: a step that ends Faulted raised the fault, which writes two components, and the loop exits at once. -/
theorem faultChangesNothingElse : Obligations.FaultChangesNothingElse := by
  intro s t hrun hstep hfault
  obtain ⟨k, rfl⟩ := step_faulted hrun hstep hfault
  refine ⟨⟨k, rfl⟩, rfl, rfl, rfl, rfl, rfl, fun fuel => ?_⟩
  rw [runLoop_step fuel hrun hstep, runLoop_done fuel (by rw [raise_status]; nofun)]

/-- No step stops the model: the fetch's fault is raised, and every meaning answers a next state. -/
theorem step_next {s : State} (hrun : s.status = .running) : ∃ t, step s = .next t := by
  cases hf : fetch s with
  | error k => exact ⟨_, step_of_fetch_error hrun hf⟩
  | ok i => exact step_of_fetch_ok hrun hf ▸ exec_next i s

/-- Settles O46, by the four ways a step ends. -/
theorem stepIsTotal : Obligations.StepIsTotal := by
  intro s hrun
  obtain ⟨t, hstep⟩ := step_next hrun
  refine ⟨t, hstep, ?_⟩
  obtain ⟨hs, -, hi⟩ | ⟨k, rfl⟩ | ⟨rfl, hq, p1, u2, u3, hf, -⟩ | ⟨rfl, hhalt⟩ := step_ending hrun hstep
  · exact .inl ⟨hs, hi⟩
  · exact .inr (.inl rfl)
  · exact .inr (.inr (.inl ⟨rfl, hq, p1, u2, u3, hf⟩))
  · exact .inr (.inr (.inr ⟨rfl, hhalt⟩))

/-! ### What a step writes -/

/-- A meaning takes at most the head of the input queue. -/
theorem ExecCase.inQ_cases {i : Instr} {s t : State} (h : ExecCase i s t) :
    t.inQ = s.inQ ∨ ∃ v, s.inQ = v :: t.inQ := by
  cases h with
  | took p1 u2 u3 v rest _ _ _ hq => exact .inr ⟨v, hq⟩
  | fault | stored | suspended | emitted | rebased | jumped | fellThrough | halted => exact .inl rfl

/-- A meaning writes memory only through the instruction's write parameter, once. -/
theorem ExecCase.mem_cases {i : Instr} {s t : State} (h : ExecCase i s t) : t.mem = s.mem ∨
    ∃ p a v, writeParam i = some p ∧ writeAddr s p = .ok a ∧ t.mem = s.mem.write a v := by
  cases h with
  | stored p v hwrite hcan _ _ => exact .inr ⟨p, _, v, hwrite, writeAddr_of_canWrite hcan, rfl⟩
  | took p1 u2 u3 v rest hi hcan _ _ =>
    exact .inr ⟨p1, _, v, congrArg writeParam hi, writeAddr_of_canWrite hcan, rfl⟩
  | fault | suspended | emitted | rebased | jumped | fellThrough | halted => exact .inl rfl

theorem ExecCase.mem_of_no_writeParam {i : Instr} {s t : State} (h : ExecCase i s t)
    (hnone : writeParam i = none) : t.mem = s.mem := by
  obtain hmem | ⟨p, _, _, hsome, -⟩ := h.mem_cases
  · exact hmem
  · cases hnone.symm.trans hsome

/-- OUT alone writes the output queue and ARB alone the relative base, and neither writes memory. -/
theorem ExecCase.outQ_rb_cases {i : Instr} {s t : State} (h : ExecCase i s t) :
    (t.outQ = s.outQ ∧ t.rb = s.rb) ∨
    (t.mem = s.mem ∧ t.rb = s.rb ∧ ∃ v p1 u2 u3, t.outQ = s.outQ ++ [v] ∧ i = .out p1 u2 u3) ∨
    (t.mem = s.mem ∧ t.outQ = s.outQ ∧ ∃ p1 u2 u3, i = .arb p1 u2 u3) := by
  cases h with
  | emitted p1 u2 u3 v hi _ => exact .inr (.inl ⟨rfl, rfl, v, p1, u2, u3, rfl, hi⟩)
  | rebased p1 u2 u3 b hi _ => exact .inr (.inr ⟨rfl, rfl, p1, u2, u3, hi⟩)
  | fault | stored | suspended | took | jumped | fellThrough | halted => exact .inl ⟨rfl, rfl⟩

/-- Settles O47: a fault of the fetch writes neither queue nor memory nor `rb`, and a meaning writes what the lemmas
above say. -/
theorem stepWritesAtMostOnce : Obligations.StepWritesAtMostOnce := by
  intro s t hrun hstep
  obtain ⟨k, hfetch, rfl⟩ | ⟨i, hfetch, hcase⟩ := step_cases hrun hstep
  · exact ⟨.inl rfl, .inl rfl, fun _ _ _ => rfl, fun _ _ => rfl, .inl ⟨rfl, rfl⟩⟩
  · rw [hfetch]
    refine ⟨hcase.inQ_cases, hcase.mem_cases.imp_right fun ⟨p, a, v, hwrite⟩ => ⟨i, p, a, v, rfl, hwrite⟩, ?_, nofun,
      hcase.outQ_rb_cases.imp_right (.imp ?_ ?_)⟩
    · rintro _ ⟨⟩ hnone
      exact hcase.mem_of_no_writeParam hnone
    · rintro ⟨hmem, hrb, v, p1, u2, u3, hout, rfl⟩
      exact ⟨hmem, hrb, v, p1, u2, u3, hout, rfl⟩
    · rintro ⟨hmem, hout, p1, u2, u3, rfl⟩
      exact ⟨hmem, hout, p1, u2, u3, rfl⟩

end Sys2Proof.Machine
end

section
/-! The invariant of reachable states (spec/10_state.md R32): it holds after `Reset`, every step keeps it, and so does
every host command, whose answers are listed once. With the obligations that state this, and what a `Resume` does to a
suspended core that got no input. -/

namespace Sys2Proof.Machine

/-! ### Reset -/

/-- A core that is neither Faulted, nor suspended, nor halted meets the invariant if it has no fault kind. -/
theorem Inv.of_active {s : State} (hip : 0 ≤ s.ip.toInt) (hkind : s.faultKind = none)
    (hactive : s.status = .ready ∨ s.status = .running) (hm : s.mem.wf) : Inv s := by
  have hne {x : Status} (hx : x ≠ .ready ∧ x ≠ .running) : s.status ≠ x := by
    rintro rfl
    exact hactive.elim hx.1 hx.2
  exact {
    ip_nonneg := hip
    fault_iff := iff_of_false (not_not.2 hkind) (hne ⟨nofun, nofun⟩)
    at_input := fun h => absurd h (hne ⟨nofun, nofun⟩)
    at_halt := fun h => absurd h (hne ⟨nofun, nofun⟩)
    mem_wf := hm }

/-- Settles O3: a loaded core is Ready at address 0 with its image in canonical form. -/
theorem invariantHoldsAfterReset : Obligations.InvariantHoldsAfterReset :=
  ⟨.of_active (by decide) rfl (.inl rfl) Memory.wf_nil, fun program hfits =>
    .of_active (by rw [State.load_ip]; decide) rfl (.inl rfl) (Memory.wf_ofImage 0 program (by omega))⟩

/-- Settles O2: the two states are the same data, and the run of one step evaluates. -/
theorem emptyImageFaultsAtZero : Obligations.EmptyImageFaultsAtZero := ⟨rfl, rfl, rfl⟩

/-! ### A step -/

/-- A Running core has no fault kind. -/
theorem Inv.faultKind_eq_none {s : State} (h : Inv s) (hs : s.status ≠ .faulted) : s.faultKind = none :=
  not_not.1 (mt h.fault_iff.1 hs)

theorem Inv.raise {s : State} (h : Inv s) (k : FaultKind) : Inv (raise k s) where
  ip_nonneg := h.ip_nonneg
  fault_iff := iff_of_true nofun rfl
  at_input := nofun
  at_halt := nofun
  mem_wf := h.mem_wf

/-- The successor of an `ip` that is not negative is not negative. -/
theorem ipPlus_nonneg {s : State} {n : Nat} (h0 : 0 ≤ s.ip.toInt) (hroom : ipRoom s n) :
    0 ≤ (ipPlus s n).toInt := by
  rw [ipPlus_toInt h0 hroom]
  omega

/-- Whatever a meaning does, `ip` stays at or above 0. -/
theorem ExecCase.ip_nonneg {i : Instr} {s t : State} (h : ExecCase i s t) (h0 : 0 ≤ s.ip.toInt) :
    0 ≤ t.ip.toInt := by
  cases h with
  | stored _ _ _ _ hroom _ => exact ipPlus_nonneg h0 hroom
  | took _ _ _ _ _ _ _ hroom _ => exact ipPlus_nonneg h0 hroom
  | emitted _ _ _ _ _ hroom | rebased _ _ _ _ _ hroom => exact ipPlus_nonneg h0 hroom
  | fellThrough _ _ _ _ hroom => exact ipPlus_nonneg h0 hroom
  | jumped _ _ _ _ htarget => exact htarget
  | fault | suspended | halted => exact h0

/-- Whatever a meaning does, memory stays canonical: it writes at addresses only. -/
theorem ExecCase.mem_wf {i : Instr} {s t : State} (h : ExecCase i s t) (hm : s.mem.wf) : t.mem.wf := by
  obtain hmem | ⟨p, a, v, -, haddr, hmem⟩ := h.mem_cases
  · rw [hmem]; exact hm
  · obtain ⟨hcan, rfl⟩ := writeAddr_ok haddr
    rw [hmem]
    exact Memory.wf_write hm hcan.target_le v

/-- Settles O4: a core that goes on running keeps `ip` an address and memory canonical; a suspension and a halt leave
the core at the instruction that made them; a fault sets its kind. -/
theorem stepKeepsInvariant : Obligations.StepKeepsInvariant := by
  intro s t hinv hstep
  by_cases hrun : s.status = .running
  · have hkind := hinv.faultKind_eq_none (by rw [hrun]; nofun)
    obtain ⟨k, -, rfl⟩ | ⟨i, hfetch, hcase⟩ := step_cases hrun hstep
    · exact hinv.raise k
    obtain ⟨hs, hk, -⟩ | ⟨k, rfl⟩ | ⟨rfl, -, hinput⟩ | ⟨rfl, hhalt⟩ := step_ending hrun hstep
    · exact .of_active (hcase.ip_nonneg hinv.ip_nonneg) (hk.trans hkind) (.inr hs) (hcase.mem_wf hinv.mem_wf)
    · exact hinv.raise k
    · exact ⟨hinv.ip_nonneg, iff_of_false (not_not.2 hkind) nofun, fun _ => hinput, nofun, hinv.mem_wf⟩
    · exact ⟨hinv.ip_nonneg, iff_of_false (not_not.2 hkind) nofun, nofun, fun _ => hhalt, hinv.mem_wf⟩
  · rw [stepIsIdleUnlessRunning s hrun] at hstep
    cases hstep
    exact hinv

/-! ### A host command -/

/-- Everything a `Resume` that ends can have done. -/
theorem resume_cases {fuel : Nat} {s t : State} (h : resume fuel s = some t) :
    ((s.status = .halted ∨ s.status = .faulted) ∧ t = s) ∨
    ((s.status = .ready ∨ s.status = .awaitingInput) ∧ runLoop fuel (s.setStatus .running) = some t) := by
  cases hs : s.status with
  | halted | faulted =>
    rw [resume_of_terminal fuel (by simp [hs])] at h
    exact .inl ⟨by simp, (Option.some_inj.1 h).symm⟩
  | ready | awaitingInput =>
    rw [resume_of_waiting fuel (by simp [hs])] at h
    exact .inr ⟨by simp, h⟩
  | running => simp [resume, hs] at h

/-- A `Resume` ends suspended, halted or Faulted: the loop exits outside Running, and no step leads to Ready. -/
theorem resume_status {fuel : Nat} {s t : State} (h : resume fuel s = some t) :
    t.status = .awaitingInput ∨ t.status = .halted ∨ t.status = .faulted := by
  obtain ⟨hs, rfl⟩ | ⟨-, hloop⟩ := resume_cases h
  · exact .inr hs
  · have hready : t.status ≠ .ready := runLoop_keeps (fun _ _ _ => step_not_ready) hloop nofun
    have hrunning := runLoop_not_running hloop
    cases hs : t.status with
    | ready => exact absurd hs hready
    | running => exact absurd hs hrunning
    | awaitingInput | halted | faulted => simp

theorem resume_not_running {fuel : Nat} {s t : State} (h : resume fuel s = some t) : t.status ≠ .running := by
  obtain hs | hs | hs := resume_status h <;> rw [hs] <;> nofun

/-- Everything a host command that ends can have done. -/
inductive CommandCase (fuel : Nat) (s : State) : Command → State → Reply → Prop where
  | reset (program : List Word) : program.length ≤ Config.maxImageLength →
      CommandCase fuel s (.reset program) (State.load program) .done
  | pushed (v : Word) : CommandCase fuel s (.pushInput v) (s.pushInput v) .done
  | resumed (t : State) : resume fuel s = some t → CommandCase fuel s .resume t (.status t.status)
  | drained : CommandCase fuel s .drainOutput s.drained (.words s.outQ)
  | peeked (what : PeekTarget) (r : Reply) : peekReply s what = .ok r → CommandCase fuel s (.peek what) s r

theorem runCommand_cases {fuel : Nat} {c : Command} {s t : State} {r : Reply}
    (h : runCommand fuel s c = .next (t, r)) : CommandCase fuel s c t r := by
  cases c with
  | reset program =>
    simp only [runCommand] at h
    split at h <;> cases h
    next hfits => exact .reset program hfits
  | pushInput v => cases h; exact .pushed v
  | resume =>
    simp only [runCommand] at h
    split at h <;> cases h
    next hresume => exact .resumed t hresume
  | drainOutput => cases h; exact .drained
  | peek what =>
    simp only [runCommand] at h
    split at h <;> cases h
    next hpeek => exact .peeked what r hpeek

/-- A host command that ends began outside Running and did what its own transaction does. -/
theorem hostCommand_cases {fuel : Nat} {c : Command} {s t : State} {r : Reply}
    (h : hostCommand fuel c s = .next (t, r)) : s.status ≠ .running ∧ CommandCase fuel s c t r := by
  by_cases hs : s.status = .running
  · rw [hostCommand, if_pos hs] at h
    cases h
  · rw [hostCommand_of_not_running fuel c hs] at h
    exact ⟨hs, runCommand_cases h⟩

/-- A command leaves the core outside Running. -/
theorem CommandCase.not_running {fuel : Nat} {c : Command} {s t : State} {r : Reply}
    (h : CommandCase fuel s c t r) (hs : s.status ≠ .running) : t.status ≠ .running := by
  cases h with
  | reset program _ => rw [State.load_status]; nofun
  | resumed t hresume => exact resume_not_running hresume
  | pushed | drained | peeked => exact hs

/-- Settles O56: the first clause is the command's own test, and each case of a command that ends leaves the core
outside Running. -/
theorem noCommandWhileRunning : Obligations.NoCommandWhileRunning := by
  refine fun fuel c s => ⟨fun hs => if_pos hs, fun t r h => ?_⟩
  obtain ⟨hs, hcase⟩ := hostCommand_cases h
  exact ⟨hs, hcase.not_running hs⟩

/-- The invariant does not speak of the queues. -/
theorem Inv.setInQ {s : State} (h : Inv s) (q : List Word) : Inv (s.setInQ q) :=
  ⟨h.ip_nonneg, h.fault_iff, h.at_input, h.at_halt, h.mem_wf⟩

theorem Inv.setOutQ {s : State} (h : Inv s) (q : List Word) : Inv (s.setOutQ q) :=
  ⟨h.ip_nonneg, h.fault_iff, h.at_input, h.at_halt, h.mem_wf⟩

/-- `Resume` keeps the invariant: setting Running does, and every step of the loop does. -/
theorem Inv.resume {fuel : Nat} {s t : State} (hinv : Inv s) (h : resume fuel s = some t) : Inv t := by
  obtain ⟨-, rfl⟩ | ⟨hs, hloop⟩ := resume_cases h
  · exact hinv
  · have hkind : s.faultKind = none := hinv.faultKind_eq_none (by obtain hs | hs := hs <;> rw [hs] <;> nofun)
    exact runLoop_keeps (fun s t hP _ hstep => stepKeepsInvariant s t hP hstep) hloop
      (.of_active hinv.ip_nonneg hkind (.inr rfl) hinv.mem_wf)

/-- Settles O5: `Reset` establishes the invariant, `Resume` keeps it step by step, and the other commands touch at most
a queue. -/
theorem hostCommandKeepsInvariant : Obligations.HostCommandKeepsInvariant := by
  intro fuel c s t r hinv h
  obtain ⟨hs, hcase⟩ := hostCommand_cases h
  refine ⟨?_, hcase.not_running hs⟩
  cases hcase with
  | reset program hfits => exact invariantHoldsAfterReset.2 program hfits
  | pushed v => exact hinv.setInQ _
  | resumed t hresume => exact hinv.resume hresume
  | drained => exact hinv.setOutQ _
  | peeked => exact hinv

/-! ### Reachable states -/

/-- Every reachable core meets the invariant and is not Running. -/
theorem Reachable.inv {s : State} (h : Reachable s) : Inv s ∧ s.status ≠ .running := by
  induction h with
  | reset program hfits =>
    exact ⟨invariantHoldsAfterReset.2 program hfits, by rw [State.load_status]; nofun⟩
  | command fuel c s t r _ hcommand ih => exact hostCommandKeepsInvariant fuel c s t r ih.1 hcommand

/-- Settles O6: the instruction the invariant finds at `ip` shows its opcode in the word there. -/
theorem reachableStatesAreConsistent : Obligations.ReachableStatesAreConsistent := by
  intro s hreach
  obtain ⟨hinv, hs⟩ := hreach.inv
  refine ⟨hinv.ip_nonneg, hinv.fault_iff, hs, fun hwait => ?_, fun hhalt => ?_⟩
  · obtain ⟨p1, u2, u3, hfetch, -⟩ := hinv.at_input hwait
    exact instrWord_mod_of_fetch hinv.ip_nonneg hfetch
  · obtain ⟨u1, u2, u3, hfetch⟩ := hinv.at_halt hhalt
    exact instrWord_mod_of_fetch hinv.ip_nonneg hfetch

/-! ### A suspended core without input -/

/-- A running core at an IN that resolves is suspended when no input waits. -/
theorem step_of_atInput {s : State} (hrun : s.status = .running) (hinput : atInput s) (hq : s.inQ = []) :
    step s = .next (s.setStatus .awaitingInput) := by
  obtain ⟨p1, u2, u3, hfetch, hres⟩ := hinput
  rw [step_of_fetch_ok hrun hfetch, hasOneParam_inp.exec, takeInput_of_empty hres hq, conclude_ok]

/-- Setting the status back undoes setting it. -/
theorem State.setStatus_setStatus_of_eq {s : State} {x y : Status} (h : s.status = x) :
    (s.setStatus y).setStatus x = s := by
  subst h
  rfl

/-- Settles O54: the invariant has the core at an IN that resolves, which suspends it again at the first step. -/
theorem resumeWithoutInputChangesNothing : Obligations.ResumeWithoutInputChangesNothing := by
  intro fuel s hinv hwait hq hfuel
  obtain ⟨n, rfl⟩ : ∃ n, fuel = n + 1 := Nat.exists_eq_succ_of_ne_zero hfuel.ne'
  have hstep : step (s.setStatus .running) = .next s := by
    rw [step_of_atInput (s := s.setStatus .running) rfl (hinv.at_input hwait) hq, State.setStatus_setStatus_of_eq hwait]
  have hresume : resume (n + 1) s = some s := by
    rw [resume_of_waiting _ (.inr hwait), runLoop_step n rfl hstep, runLoop_done n (by rw [hwait]; nofun)]
  rw [hostCommand_of_not_running _ _ (by rw [hwait]; nofun)]
  simp only [runCommand, hresume, hwait]

end Sys2Proof.Machine
end

section
/-! What the meaning of each instruction makes of a state (spec/41_arithmetic.md to spec/46_halt.md): where it completes
and with what, where it faults, and its frame; each read off the shared stages. -/

namespace Sys2Proof.Machine

/-- Settles O22: a write parameter's target is the range check of its address, and the memory is not asked. -/
theorem writeAddrByMode : Obligations.WriteAddrByMode := fun _ _ _ =>
  ⟨rfl, checkAddr_of_isAddr, checkAddr_of_not_isAddr, checkAddr_of_isAddr, checkAddr_of_not_isAddr, fun _ => rfl⟩

/-! ### ADD, MUL, LT, EQ -/

theorem checkWritable_of_immediate {p : Param} (h : p.mode = .immediate) :
    checkWritable p = .error .invalidMode :=
  checkWritable_of_not_writable fun hw => writable_iff.1 hw h

/-- The write mode is checked before anything else. -/
theorem storeResult_of_immediate (f : Word → Word → Word) {p1 p2 p3 : Param} (s : State)
    (h : p3.mode = .immediate) : storeResult f p1 p2 p3 s = .error .invalidMode := by
  rw [storeResult, checkWritable_of_immediate h]
  rfl

/-- Each of the four storing instructions is the shared stages with a result of its own. -/
theorem exec_storing {p1 p2 p3 : Param} {i : Instr}
    (hi : i ∈ [Instr.add p1 p2 p3, .mul p1 p2 p3, .lt p1 p2 p3, .eq p1 p2 p3]) :
    ∃ f, ∀ s, exec i s = conclude s (storeResult f p1 p2 p3 s) := by
  simp only [List.mem_cons, List.not_mem_nil, or_false] at hi
  obtain rfl | rfl | rfl | rfl := hi
  · exact ⟨aluAdd, isStoring_add.exec p1 p2 p3⟩
  · exact ⟨aluMul, isStoring_mul.exec p1 p2 p3⟩
  · exact ⟨aluLt, isStoring_lt.exec p1 p2 p3⟩
  · exact ⟨aluEq, isStoring_eq.exec p1 p2 p3⟩

/-- Settles O28: the stages commit the instruction's own result when everything resolves, and their two faults do not
depend on it. -/
theorem storingInstructionsComplete : Obligations.StoringInstructionsComplete := by
  intro s p1 p2 p3 a b result
  refine ⟨fun h1 h2 h3 h4 => ?completes, fun hmode h i hi => ?addressFault, fun himm i hi => ?modeFault⟩
  case completes =>
    have hres := And.intro h1 (And.intro h2 (And.intro h3 h4))
    rw [isStoring_add.exec, isStoring_mul.exec, isStoring_lt.exec, isStoring_eq.exec,
      storeResult_of_resolved _ hres, storeResult_of_resolved _ hres, storeResult_of_resolved _ hres,
      storeResult_of_resolved _ hres, aluLt_eq_ite, aluEq_eq_ite]
    exact ⟨rfl, rfl, rfl, rfl⟩
  case addressFault =>
    obtain ⟨f, hexec⟩ := exec_storing hi
    rw [hexec, storeResult_of_not_resolved f hmode h, conclude_error]
  case modeFault =>
    obtain ⟨f, hexec⟩ := exec_storing hi
    rw [hexec, storeResult_of_immediate f s himm, conclude_error]

/-! ### IN -/

theorem takeInput_of_immediate {p1 : Param} (s : State) (h : p1.mode = .immediate) :
    takeInput p1 s = .error .invalidMode := by
  rw [takeInput, checkWritable_of_immediate h]
  rfl

/-- Settles O29, clause by clause from the stages of IN. -/
theorem inCompletesOrSuspends : Obligations.InCompletesOrSuspends := by
  intro s p1 u2 u3
  rw [hasOneParam_inp.exec]
  refine ⟨fun v rest hq hw hroom => ?takes, fun hq hw hroom => ?suspends, fun hmode h => ?addressFault,
    fun himm => ?modeFault⟩
  case takes => rw [takeInput_of_cons ⟨hw, hroom⟩ hq, conclude_ok]
  case suspends => rw [takeInput_of_empty ⟨hw, hroom⟩ hq, conclude_ok]
  case addressFault => rw [takeInput_of_not_resolved hmode h, conclude_error]
  case modeFault => rw [takeInput_of_immediate s himm, conclude_error]

/-! ### OUT, ARB -/

/-- Settles O30: the two instructions are one operand's stages with different effects, and fault alike. -/
theorem outAndArbComplete : Obligations.OutAndArbComplete := by
  intro s p1 u2 u3
  rw [hasOneParam_out.exec, hasOneParam_arb.exec]
  refine ⟨fun hr hroom => ?completes, fun h => ?addressFault⟩
  case completes =>
    rw [useOperand_of_resolved _ ⟨hr, hroom⟩, useOperand_of_resolved _ ⟨hr, hroom⟩]
    exact ⟨rfl, rfl⟩
  case addressFault =>
    rw [useOperand_of_not_resolved _ h, useOperand_of_not_resolved _ h]
    exact ⟨rfl, rfl⟩

/-! ### JT, JF -/

/-- Each of the two jumps is the shared stages with a condition of its own on operand 1. -/
theorem exec_jump {p1 p2 : Param} {u3 : Mode} {i : Instr} (hi : i ∈ [Instr.jt p1 p2 u3, .jf p1 p2 u3]) :
    ∃ taken, (∀ s, exec i s = conclude s (jumpWhen taken p1 p2 s)) ∧
      ∀ v, taken v = true ↔ (i = .jt p1 p2 u3 ∧ v ≠ 0 ∨ i = .jf p1 p2 u3 ∧ v = 0) := by
  simp only [List.mem_cons, List.not_mem_nil, or_false] at hi
  obtain rfl | rfl := hi
  · exact ⟨condTrue, isJump_jt.exec p1 p2 u3, fun v => by simp [condTrue_iff]⟩
  · exact ⟨condFalse, isJump_jf.exec p1 p2 u3, fun v => by simp [condFalse_iff]⟩

/-- Settles O31: with resolved operands the jump is decided by its condition, then by its target or its successor. -/
theorem jumpsComplete : Obligations.JumpsComplete := by
  intro s p1 p2 u3 i hi taken resolved
  obtain ⟨cond, hexec, hcond⟩ := exec_jump hi
  have htaken : cond (valueOf s p1) = true ↔ taken := hcond (valueOf s p1)
  rw [hexec, ← htaken]
  refine ⟨fun h ht h0 => ?jumps, fun h ht hroom => ?fallsThrough, fun _ ht hneg => ?badTarget,
    fun _ ht hend => ?noSuccessor, fun h => ?unresolved⟩
  case jumps => rw [jumpWhen_of_ok h ((jumpOk_iff_of_taken ht).2 h0), if_pos ht, conclude_ok]
  case fallsThrough => rw [jumpWhen_of_ok h ((jumpOk_iff_of_not_taken ht).2 hroom), if_neg ht, conclude_ok]
  case badTarget =>
    rw [jumpWhen_of_not_ok fun hall => Int.not_le.2 hneg ((jumpOk_iff_of_taken ht).1 hall.2), conclude_error]
  case noSuccessor =>
    rw [jumpWhen_of_not_ok fun hall => hend ((jumpOk_iff_of_not_taken ht).1 hall.2), conclude_error]
  case unresolved => rw [jumpWhen_of_not_ok fun hall => h hall.1, conclude_error]

/-- Settles O32: the meaning of HLT is this update. -/
theorem hltCompletes : Obligations.HltCompletes := fun s u1 u2 u3 => exec_hlt u1 u2 u3 s

/-! ### Frames -/

section
variable {s : State} {p : Param} {v : Word}

/-- A store through a resolved write parameter leaves every cell but the one `writeAddr` gives. -/
theorem store_target_cell_other {a b : Nat} (haddr : writeAddr s p = .ok a) (hb : b ≠ a) (u : State) :
    (u.store (targetOf s p) v).cell b = u.cell b := by
  obtain ⟨-, rfl⟩ := writeAddr_ok haddr
  exact State.store_cell_other u v hb

/-- A resolved write parameter has an address. -/
theorem writeAddr_ne_error (hcan : canWrite s p) (k : FaultKind) : writeAddr s p ≠ .error k := by
  rw [writeAddr_of_canWrite hcan]
  nofun

end

/-- Settles O43: a fault and a suspension leave memory alone, and the other next states store through the write
parameter. -/
theorem storingInstructionsFrame : Obligations.StoringInstructionsFrame := by
  intro s t p1 p2 p3 u2 u3
  refine ⟨fun i hi h => ?storing, fun h => ?input⟩
  case storing =>
    obtain ⟨f, hexec⟩ := exec_storing hi
    rw [hexec] at h
    obtain ⟨k, rfl⟩ | ⟨-, -, hcan, -, rfl⟩ := storeResult_next h
    · exact ⟨rfl, rfl, rfl, .inr ⟨k, rfl⟩, fun _ _ _ _ => rfl, fun _ _ => rfl⟩
    · exact ⟨rfl, rfl, rfl, .inl ⟨rfl, rfl⟩, fun a ha b hb => store_target_cell_other ha hb s,
        fun k hk => absurd hk (writeAddr_ne_error hcan k)⟩
  case input =>
    rw [hasOneParam_inp.exec] at h
    obtain ⟨k, rfl⟩ | ⟨-, -, -, rfl⟩ | ⟨hcan, -, v, rest, hq, rfl⟩ := takeInput_next h
    · exact ⟨rfl, rfl, .inl ⟨rfl, rfl, rfl⟩, .inr (.inr ⟨k, rfl⟩), fun _ _ _ _ => rfl, fun _ _ => rfl⟩
    · exact ⟨rfl, rfl, .inl ⟨rfl, rfl, rfl⟩, .inr (.inl rfl), fun _ _ _ _ => rfl, fun _ _ => rfl⟩
    · exact ⟨rfl, rfl, .inr ⟨v, hq⟩, .inl ⟨rfl, rfl⟩,
        fun a ha b hb => store_target_cell_other ha hb (s.setInQ rest),
        fun k hk => absurd hk (writeAddr_ne_error hcan k)⟩

/-- Settles O44: no next state of these instructions stores, and each effect is one update beside `ip`. -/
theorem nonStoringInstructionsFrame : Obligations.NonStoringInstructionsFrame := by
  intro s t p1 p2 u1 u2 u3
  refine ⟨fun h => ?out, fun h => ?arb, fun i hi h => ?jump, fun h => ?hlt⟩
  case out =>
    rw [hasOneParam_out.exec] at h
    obtain ⟨k, rfl⟩ | ⟨-, -, rfl⟩ := useOperand_next h
    · exact ⟨rfl, rfl, rfl, .inr ⟨k, rfl⟩⟩
    · exact ⟨rfl, rfl, rfl, .inl ⟨rfl, rfl⟩⟩
  case arb =>
    rw [hasOneParam_arb.exec] at h
    obtain ⟨k, rfl⟩ | ⟨-, -, rfl⟩ := useOperand_next h
    · exact ⟨rfl, rfl, rfl, .inr ⟨k, rfl⟩⟩
    · exact ⟨rfl, rfl, rfl, .inl ⟨rfl, rfl⟩⟩
  case jump =>
    obtain ⟨taken, hexec, -⟩ := exec_jump hi
    rw [hexec] at h
    obtain ⟨k, rfl⟩ | ⟨-, -, rfl⟩ | ⟨-, -, rfl⟩ := jumpWhen_next h
    · exact ⟨rfl, rfl, rfl, rfl, .inr ⟨k, rfl⟩⟩
    · exact ⟨rfl, rfl, rfl, rfl, .inl ⟨rfl, rfl⟩⟩
    · exact ⟨rfl, rfl, rfl, rfl, .inl ⟨rfl, rfl⟩⟩
  case hlt =>
    rw [exec_hlt] at h
    cases h
    exact ⟨rfl, rfl, rfl, rfl, rfl, rfl⟩

/-! ### A sequence of ARBs -/

/-- Wrapping an intermediate sum changes nothing in the end. -/
theorem wrapW_add_wrapW (z : Int) (d : Word) : wrapW ((wrapW z).toInt + d.toInt) = wrapW (z + d.toInt) := by
  simp only [wrapW, BitVec.ofInt_add, BitVec.ofInt_toInt]

/-- Settles O50, by induction on the number of ARBs: each adds its operand and wraps, which the next one undoes. -/
theorem arbDeltasAddUp : Obligations.ArbDeltasAddUp := by
  intro n run p u2 u3 h
  induction n with
  | zero => rw [Finset.sum_range_zero, Int.add_zero, wrapW_of_toInt]
  | succ n ih =>
    obtain ⟨hr, hroom, hexec⟩ := h n (Nat.lt_succ_self n)
    obtain ⟨-, harb⟩ := (outAndArbComplete (run n) (p n) (u2 n) (u3 n)).1 hr hroom
    have hrb : (run (n + 1)).rb = wrapW ((run n).rb.toInt + (valueOf (run n) (p n)).toInt) :=
      congrArg State.rb (Host.Outcome.next.inj (hexec.symm.trans harb))
    rw [hrb, ih fun k hk => h k (Nat.lt_succ_of_lt hk), wrapW_add_wrapW, Finset.sum_range_succ, Int.add_assoc]

end Sys2Proof.Machine
end

section
/-! What the host commands do and return (spec/50_machine_controller.md R153 to R157, R162), and that Faulted and Halted
are left by `Reset` alone (R152, spec/60_exceptions.md R176). -/

namespace Sys2Proof.Machine

/-! ### The queues and `Peek` -/

theorem runCommand_peek {fuel : Nat} {s : State} {what : PeekTarget} {r : Reply} (h : peekReply s what = .ok r) :
    runCommand fuel s (.peek what) = .next (s, r) := by
  rw [runCommand, h]

theorem peekReply_mem {s : State} {a : Int} (h : isAddr a) : peekReply s (.mem a) = .ok (.word (s.cell a.toNat)) := by
  rw [peekReply, memRead_of_isAddr s.mem h]
  rfl

theorem peekReply_outside {s : State} {a : Int} (h : ¬ isAddr a) :
    peekReply s (.mem a) = .error .peekOutsideMemory := by
  rw [peekReply, memRead_of_not_isAddr s.mem h]

/-- `Peek` answers for every component and for every address. -/
theorem peekReply_ok (s : State) {what : PeekTarget} (h : ∀ a, what = .mem a → isAddr a) :
    ∃ r, peekReply s what = .ok r := by
  cases what with
  | mem a => exact ⟨_, peekReply_mem (h a rfl)⟩
  | status | faultKind | ip | rb | inQ | outQ => exact ⟨_, rfl⟩

/-- Settles O52: outside Running a command is its own transaction, and each of these writes out what it does. -/
theorem queueCommandsAndPeek : Obligations.QueueCommandsAndPeek := by
  intro fuel s v hs
  simp only [hostCommand_of_not_running fuel _ hs]
  refine ⟨rfl, rfl, rfl, rfl, rfl, rfl, rfl, rfl, fun a ha => runCommand_peek (peekReply_mem ha), fun a ha => ?_⟩
  rw [runCommand, peekReply_outside ha]

/-! ### Faulted and Halted -/

/-- A command that is no `Reset` keeps the status and the fault kind of a terminal core. -/
theorem CommandCase.of_terminal {fuel : Nat} {c : Command} {s t : State} {r : Reply} (h : CommandCase fuel s c t r)
    (hs : s.status = .halted ∨ s.status = .faulted) (hc : ∀ program, c ≠ .reset program) :
    t.status = s.status ∧ t.faultKind = s.faultKind := by
  cases h with
  | reset program _ => exact absurd rfl (hc program)
  | resumed t hresume =>
    rw [resume_of_terminal fuel hs] at hresume
    cases hresume
    exact ⟨rfl, rfl⟩
  | pushed | drained | peeked => exact ⟨rfl, rfl⟩

theorem runCommand_resume {fuel : Nat} {s t : State} (h : resume fuel s = some t) :
    runCommand fuel s .resume = .next (t, .status t.status) := by
  simp only [runCommand, h]

/-- Settles O51: a terminal core is not Running, so a step is idle and the commands are their own transactions, of which
`Resume` alone looks at the status. -/
theorem terminalStatusesLast : Obligations.TerminalStatusesLast := by
  intro fuel s hterminal
  have hs : s.status ≠ .running := by obtain h | h := hterminal <;> rw [h] <;> nofun
  refine ⟨stepIsIdleUnlessRunning s hs, ?resume, fun c t r hc h => ?others, fun v => ?push, ?drain,
    fun what hwhat => ?peek⟩
  case resume =>
    rw [hostCommand_of_not_running fuel _ hs, runCommand_resume (resume_of_terminal fuel hterminal.symm)]
  case others => exact (hostCommand_cases h).2.of_terminal hterminal.symm hc
  case push => rw [hostCommand_of_not_running fuel _ hs]; rfl
  case drain => rw [hostCommand_of_not_running fuel _ hs]; rfl
  case peek =>
    obtain ⟨r, hr⟩ := peekReply_ok s hwhat
    exact ⟨r, by rw [hostCommand_of_not_running fuel _ hs, runCommand_peek hr]⟩

/-! ### `Resume` -/

theorem resume_mono {fuel : Nat} {s t : State} (h : resume fuel s = some t) (more : Nat) :
    resume (fuel + more) s = some t := by
  obtain ⟨hs, rfl⟩ | ⟨hs, hloop⟩ := resume_cases h
  · exact resume_of_terminal _ hs
  · rw [resume_of_waiting _ hs]
    exact runLoop_mono hloop more

/-- The machine of the host's interface runs on by a step. -/
theorem core_run_succ {s t : State} (n : Nat) (h : step s = .next t) :
    Host.Core.run ⟨State, Fault, Refusal, step, State.reset⟩ (n + 1) s =
      Host.Core.run ⟨State, Fault, Refusal, step, State.reset⟩ n t := by
  simp only [Host.Core.run, h]

/-- What the loop of a `Resume` answers is reached by as many steps as it took. -/
theorem runLoop_reaches {fuel : Nat} {s t : State} (h : runLoop fuel s = some t) :
    ∃ n, Host.Core.run ⟨State, Fault, Refusal, step, State.reset⟩ n s = .next t := by
  induction fuel generalizing s with
  | zero =>
    obtain ⟨-, rfl⟩ | ⟨_, _, hfuel, -⟩ := runLoop_cases h
    · exact ⟨0, rfl⟩
    · cases hfuel
  | succ fuel ih =>
    obtain ⟨-, rfl⟩ | ⟨_, u, hfuel, -, hstep, hloop⟩ := runLoop_cases h
    · exact ⟨0, rfl⟩
    · cases hfuel
      obtain ⟨n, hn⟩ := ih hloop
      exact ⟨n + 1, (core_run_succ n hstep).trans hn⟩

/-- Settles O53: the reply is the status left, which is that of a loop's exit or of a terminal core; fuel only bounds
the loop. -/
theorem resumeReturnsOutsideRunning : Obligations.ResumeReturnsOutsideRunning := by
  intro fuel s t r h
  obtain ⟨hs, hcase⟩ := hostCommand_cases h
  cases hcase with | resumed _ hresume =>
  refine ⟨rfl, resume_status hresume, fun more => ?_, fun hwaiting => ?_⟩
  · rw [hostCommand_of_not_running _ _ hs, runCommand_resume (resume_mono hresume more)]
  · rw [resume_of_waiting fuel hwaiting] at hresume
    exact runLoop_reaches hresume

end Sys2Proof.Machine
end

section
/-! Splitting a run by its suspensions (spec/50_machine_controller.md R161). The idea: a core with inputs added at the
tail of its input queue and outputs added at the head of its output queue does the same steps, the additions staying
where they are, as long as no IN finds the input queue empty. -/

namespace Sys2Proof.Machine

/-- The core with outputs emitted before its own and inputs pushed behind its own. -/
def State.widen (outs ins : List Word) (s : State) : State := (s.setInQ (s.inQ ++ ins)).setOutQ (outs ++ s.outQ)

section
variable {outs ins : List Word} {s t : State}

@[simp] theorem State.widen_inQ : (s.widen outs ins).inQ = s.inQ ++ ins := rfl
@[simp] theorem State.widen_outQ : (s.widen outs ins).outQ = outs ++ s.outQ := rfl
@[simp] theorem State.widen_status : (s.widen outs ins).status = s.status := rfl

/-! ### The stages commute with the additions

They read memory, `ip` and `rb`, which the additions leave alone, so each check and operand is the same by
definition. -/

theorem fetch_widen : fetch (s.widen outs ins) = fetch s := fetch_congr rfl rfl

theorem storeResult_widen (f : Word → Word → Word) (p1 p2 p3 : Param) :
    storeResult f p1 p2 p3 (s.widen outs ins) = State.widen outs ins <$> storeResult f p1 p2 p3 s := by
  simp only [storeResult, map_bind, map_pure]
  rfl

theorem jumpWhen_widen (taken : Word → Bool) (p1 p2 : Param) :
    jumpWhen taken p1 p2 (s.widen outs ins) = State.widen outs ins <$> jumpWhen taken p1 p2 s := by
  simp only [jumpWhen, map_bind, map_pure, apply_ite (Functor.map (State.widen outs ins))]
  rfl

theorem useOperand_widen {g : Word → State → State} (hg : ∀ r, g r (s.widen outs ins) = (g r s).widen outs ins)
    (p1 : Param) : useOperand g p1 (s.widen outs ins) = State.widen outs ins <$> useOperand g p1 s := by
  simp only [useOperand, hg, map_bind, map_pure]
  rfl

/-- The end of a step commutes with the additions when its stages do. -/
theorem conclude_widen {e e' : Except FaultKind State} (hstages : e' = State.widen outs ins <$> e)
    (h : conclude s e = .next t) : conclude (s.widen outs ins) e' = .next (t.widen outs ins) := by
  obtain rfl | ⟨k, rfl, rfl⟩ := conclude_cases h
  · exact congrArg _ hstages
  · exact congrArg _ hstages

/-- IN commutes with the additions unless it is the added inputs that keep it from suspending. -/
theorem conclude_takeInput_widen {p1 : Param} (h : conclude s (takeInput p1 s) = .next t)
    (hins : t.status ≠ .awaitingInput ∨ ins = []) :
    conclude (s.widen outs ins) (takeInput p1 (s.widen outs ins)) = .next (t.widen outs ins) := by
  obtain ⟨himm, hr⟩ | ⟨hmode, hnot, hr⟩ | ⟨hres, hq, hr⟩ | ⟨hres, v, rest, hq, hr⟩ := takeInput_cases p1 s <;>
    rw [hr] at h <;> cases h
  · rw [takeInput_of_immediate _ himm]; rfl
  · rw [takeInput_of_not_resolved (s := s.widen outs ins) hmode hnot]; rfl
  · obtain rfl : ins = [] := hins.resolve_left fun hne => hne rfl
    have hempty : (s.widen outs []).inQ = [] := by simp [hq]
    rw [takeInput_of_empty (s := s.widen outs []) hres hempty]
    rfl
  · have hcons : (s.widen outs ins).inQ = v :: (rest ++ ins) := by simp [hq]
    rw [takeInput_of_cons (s := s.widen outs ins) hres hcons]
    rfl

/-- A meaning commutes with the additions unless it suspends and inputs were added. -/
theorem exec_widen {i : Instr} (h : exec i s = .next t) (hins : t.status ≠ .awaitingInput ∨ ins = []) :
    exec i (s.widen outs ins) = .next (t.widen outs ins) := by
  cases i with
  | add p1 p2 p3 | mul p1 p2 p3 | lt p1 p2 p3 | eq p1 p2 p3 =>
    exact conclude_widen (storeResult_widen _ p1 p2 p3) h
  | jt p1 p2 u3 | jf p1 p2 u3 => exact conclude_widen (jumpWhen_widen _ p1 p2) h
  | inp p1 u2 u3 => exact conclude_takeInput_widen h hins
  | out p1 u2 u3 =>
    refine conclude_widen (useOperand_widen (fun r => ?_) p1) h
    simp [State.widen, State.setInQ, State.setOutQ]
  | arb p1 u2 u3 => 
    exact conclude_widen (useOperand_widen (g := fun r t => t.setRb (rbAdd t.rb r)) (fun _ => rfl) p1) h
  | hlt u1 u2 u3 => cases h; rfl

theorem step_widen (hrun : s.status = .running) (hstep : step s = .next t)
    (hins : t.status ≠ .awaitingInput ∨ ins = []) :
    step (s.widen outs ins) = .next (t.widen outs ins) := by
  have hrun' : (s.widen outs ins).status = .running := State.widen_status.trans hrun
  cases hf : fetch s with
  | error k =>
    rw [step_of_fetch_error hrun hf] at hstep
    cases hstep
    exact step_of_fetch_error hrun' (fetch_widen.trans hf)
  | ok i =>
    rw [step_of_fetch_ok hrun hf] at hstep
    rw [step_of_fetch_ok hrun' (fetch_widen.trans hf)]
    exact exec_widen hstep hins

/-! ### The run loop -/

/-- Outputs emitted before do not change a run. -/
theorem runLoop_widen_outs {fuel : Nat} (h : runLoop fuel s = some t) :
    runLoop fuel (s.widen outs []) = some (t.widen outs []) := by
  induction fuel generalizing s with
  | zero =>
    obtain ⟨hs, rfl⟩ | ⟨_, _, hfuel, -⟩ := runLoop_cases h
    · exact runLoop_done _ (State.widen_status.trans_ne hs)
    · cases hfuel
  | succ fuel ih =>
    obtain ⟨hs, rfl⟩ | ⟨_, u, hfuel, hrun, hstep, hloop⟩ := runLoop_cases h
    · exact runLoop_done _ (State.widen_status.trans_ne hs)
    · cases hfuel
      rw [runLoop_step fuel (State.widen_status.trans hrun) (step_widen hrun hstep (.inr rfl))]
      exact ih hloop

/-- Inputs pushed before a run that suspends bring it, after some steps, to where the suspended core goes on with them:
the IN that would have suspended has not been executed yet. -/
theorem runLoop_widen_ins {fuel : Nat} (h : runLoop fuel s = some t) (hrun : s.status = .running)
    (hwait : t.status = .awaitingInput) (ins : List Word) :
    ∃ n, ∀ m, runLoop (n + m) (s.widen [] ins) = runLoop m ((t.setStatus .running).widen [] ins) := by
  induction fuel generalizing s with
  | zero =>
    obtain ⟨hs, -⟩ | ⟨_, _, hfuel, -⟩ := runLoop_cases h
    · exact absurd hrun hs
    · cases hfuel
  | succ fuel ih =>
    obtain ⟨hs, -⟩ | ⟨_, u, hfuel, -, hstep, hloop⟩ := runLoop_cases h
    · exact absurd hrun hs
    cases hfuel
    by_cases hu : u.status = .running
    · obtain ⟨n, hn⟩ := ih hloop hu
      refine ⟨n + 1, fun m => ?_⟩
      rw [Nat.add_right_comm, runLoop_step (n + m) (State.widen_status.trans hrun)
        (step_widen hrun hstep (.inl (by rw [hu]; nofun)))]
      exact hn m
    · rw [runLoop_done fuel hu] at hloop
      cases hloop
      obtain ⟨rfl, -⟩ := step_suspended hrun hstep hwait
      exact ⟨0, fun m => by rw [Nat.zero_add, State.setStatus_setStatus_of_eq hrun]⟩

end

/-- Settles O55: the run with all inputs reaches the suspended core with the further inputs, whose run is that of the
drained core with the drained outputs before its own. -/
theorem splittingARunChangesNothing : Obligations.SplittingARunChangesNothing := by
  intro fuel fuel' s t u inputs hs ht hwait hu
  rw [resume_of_waiting _ hs] at ht
  rw [resume_of_waiting _ (s := t.drained.setInQ (t.inQ ++ inputs)) (.inr hwait)] at hu
  obtain ⟨n, hn⟩ := runLoop_widen_ins ht rfl hwait inputs
  have hsecond := runLoop_widen_outs (outs := t.outQ) hu
  have hsame : ((t.drained.setInQ (t.inQ ++ inputs)).setStatus .running).widen t.outQ [] =
      (t.setStatus .running).widen [] inputs := by
    apply State.ext_fields <;> simp [State.drained, State.widen]
  have hend : u.widen t.outQ [] = u.setOutQ (t.outQ ++ u.outQ) := by
    apply State.ext_fields <;> simp [State.widen]
  refine ⟨n + fuel', ?_⟩
  calc resume (n + fuel') (s.setInQ (s.inQ ++ inputs))
      = runLoop (n + fuel') ((s.setStatus .running).widen [] inputs) :=
        resume_of_waiting (s := s.setInQ (s.inQ ++ inputs)) _ hs
    _ = runLoop fuel' ((t.setStatus .running).widen [] inputs) := hn fuel'
    _ = some (u.widen t.outQ []) := hsame ▸ hsecond
    _ = some (u.setOutQ (t.outQ ++ u.outQ)) := congrArg some hend

end Sys2Proof.Machine
end

section
/-! The pipeline driver (spec/60_exceptions.md section 5): its set-up (R185), where the outputs of an iteration go
(R187), which exit it takes (R186), and why a run ends (R189 to R191). -/

namespace Sys2Proof.Machine

/-! ### Set-up -/

theorem pipelineSetUp_core (program phases : List Word) (s0 : Word) {j : Nat} (h : j < phases.length) :
    (pipelineSetUp program phases s0).cores[j]? =
      some (if j = 0 then ((State.load program).pushInput phases[j]).pushInput s0
        else (State.load program).pushInput phases[j]) := by
  cases j <;> simp [pipelineSetUp, List.getElem?_map, List.getElem?_eq_getElem h]

/-- Settles O57: each core is the loaded one with its phase pushed, and core 0 gets `s0` after it. -/
theorem pipelineSetUpQueues : Obligations.PipelineSetUpQueues := by
  refine fun program phases s0 => ⟨by simp [pipelineSetUp], fun j h => ⟨_, pipelineSetUp_core program phases s0 h, ?_⟩⟩
  split
  case isTrue => exact ⟨rfl, rfl, rfl⟩
  case isFalse => exact ⟨rfl, rfl, rfl⟩

/-! ### The cores after an iteration -/

section
variable {p : Pipeline} {before : State} (hb : p.cores[p.turn]? = some before) (after : State)

theorem Pipeline.moved_getElem? (p : Pipeline) (after : State) (j : Nat) : (p.moved after)[j]? =
    if (p.turn + 1) % p.cores.length = j then (p.cores.set p.turn after.drained)[j]?.map (State.pushAll after.outQ)
    else (p.cores.set p.turn after.drained)[j]? := by
  rw [Pipeline.moved, List.getElem?_modify]
  split <;> simp

/-- Neither the core resumed nor the next one: untouched. -/
theorem Pipeline.moved_other (p : Pipeline) (after : State) {j : Nat} (hturn : j ≠ p.turn)
    (hnext : j ≠ (p.turn + 1) % p.cores.length) : (p.moved after)[j]? = p.cores[j]? := by
  rw [Pipeline.moved_getElem?, if_neg hnext.symm, List.getElem?_set_ne hturn.symm]

/-- With more than one core the next one is another. -/
theorem Pipeline.next_ne_turn {p : Pipeline} (hmany : 1 < p.cores.length) (hlt : p.turn < p.cores.length) :
    (p.turn + 1) % p.cores.length ≠ p.turn := by
  rcases Nat.lt_or_eq_of_le (Nat.succ_le_of_lt hlt) with h | h
  · rw [Nat.mod_eq_of_lt h]; omega
  · rw [show p.turn + 1 = p.cores.length from h, Nat.mod_self]; omega

include hb

theorem Pipeline.moved_turn (hmany : 1 < p.cores.length) : (p.moved after)[p.turn]? = some after.drained := by
  have hlt := Pipeline.turn_lt hb
  rw [Pipeline.moved_getElem?, if_neg (Pipeline.next_ne_turn hmany hlt), List.getElem?_set_self hlt]

theorem Pipeline.moved_next (hmany : 1 < p.cores.length) :
    ∃ next, p.cores[(p.turn + 1) % p.cores.length]? = some next ∧
      (p.moved after)[(p.turn + 1) % p.cores.length]? = some (next.setInQ (next.inQ ++ after.outQ)) := by
  have hlt := Pipeline.turn_lt hb
  have hnext : (p.turn + 1) % p.cores.length < p.cores.length := Nat.mod_lt _ (by omega)
  refine ⟨_, List.getElem?_eq_getElem hnext, ?_⟩
  rw [Pipeline.moved_getElem?, if_pos rfl, List.getElem?_set_ne (Pipeline.next_ne_turn hmany hlt).symm,
    List.getElem?_eq_getElem hnext]
  rfl

/-- One core is its own next core. -/
theorem Pipeline.moved_single (hone : p.cores.length = 1) :
    p.moved after = [after.drained.setInQ (after.inQ ++ after.outQ)] := by
  have hlt := Pipeline.turn_lt hb
  have hturn : p.turn = 0 := by omega
  obtain ⟨c, hc⟩ := List.length_eq_one_iff.1 hone
  rw [Pipeline.moved, hturn, hc, List.length_singleton, Nat.mod_one]
  rfl

/-- The core resumed keeps its status and fault kind through the transfer. -/
theorem Pipeline.moved_turn_status : ∃ c, (p.moved after)[p.turn]? = some c ∧
    c.status = after.status ∧ c.faultKind = after.faultKind := by
  rw [Pipeline.moved_getElem?, List.getElem?_set_self (Pipeline.turn_lt hb)]
  split
  · exact ⟨_, rfl, rfl, rfl⟩
  · exact ⟨_, rfl, rfl, rfl⟩

end

theorem lastOr_eq (old : Option Word) (outs : List Word) : lastOr old outs = outs.getLast?.or old := by
  unfold lastOr
  cases outs.getLast? <;> rfl

/-! ### The answer of an iteration -/

section
variable {fuel : Nat} {p : Pipeline} {before after : State}

/-- Whichever exit it takes, an iteration leaves the moved cores and the final value; when it goes on, the turn and the
idle count are the next ones. -/
theorem pipelineIterate_answer (hb : p.cores[p.turn]? = some before) (hr : resume fuel before = some after) :
    ∃ q, (pipelineIterate fuel p = some (.continued q) ∨ ∃ e, pipelineIterate fuel p = some (.ended q e)) ∧
      q.cores = p.moved after ∧ q.final = p.finalAfter after ∧
      (pipelineIterate fuel p = some (.continued q) →
        q.turn = (p.turn + 1) % p.cores.length ∧ q.idle = p.idleAfter before after) := by
  obtain ⟨-, hi⟩ | ⟨-, -, hi⟩ | ⟨-, -, -, hi⟩ | ⟨-, -, -, hi⟩ := pipelineIterate_cases hb hr
  · exact ⟨_, .inr ⟨_, hi⟩, rfl, rfl, fun hc => nomatch hi.symm.trans hc⟩
  · exact ⟨_, .inr ⟨_, hi⟩, rfl, rfl, fun hc => nomatch hi.symm.trans hc⟩
  · exact ⟨_, .inr ⟨_, hi⟩, rfl, rfl, fun hc => nomatch hi.symm.trans hc⟩
  · exact ⟨_, .inl hi, rfl, rfl, fun _ => ⟨rfl, rfl⟩⟩

end

/-- Settles O58: the cores an iteration leaves, looked at one by one. -/
theorem pipelineMovesOutputsInOrder : Obligations.PipelineMovesOutputsInOrder := by
  intro fuel p before after hb hr
  obtain ⟨q, hanswer, hcores, hfinal, hnext⟩ := pipelineIterate_answer hb hr
  refine ⟨q, hanswer, ?_⟩
  rw [hcores, hfinal]
  refine ⟨Pipeline.moved_length p after, Pipeline.moved_single hb after,
    fun hmany => ⟨Pipeline.moved_turn hb after hmany, Pipeline.moved_next hb after hmany⟩,
    fun j => Pipeline.moved_other p after, fun hlast => ?last, fun hnot => if_neg hnot, fun hc => ?goesOn⟩
  case last => rw [Pipeline.finalAfter, if_pos hlast, lastOr_eq]
  case goesOn =>
    obtain ⟨hturn, hidle⟩ := hnext hc
    rw [hidle]
    exact ⟨hturn, fun hs ho => if_pos ⟨hs, ho⟩, fun hnot => if_neg hnot⟩

/-- Settles O60: of the four exits an iteration takes one, and its condition contradicts those of the others. -/
theorem pipelineIterationExits : Obligations.PipelineIterationExits := by
  intro fuel p before after hb hr
  have hsome {cs : List State} : (∃ c ∈ cs, c.status ≠ .halted) → ¬ ∀ c ∈ cs, c.status = .halted :=
    fun ⟨c, hc, hne⟩ hall => hne (hall c hc)
  obtain ⟨hf, hi⟩ | ⟨hf, hall, hi⟩ | ⟨hf, hnot, hidle, hi⟩ | ⟨hf, hnot, hidle, hi⟩ := pipelineIterate_cases hb hr
  · exact ⟨_, rfl, fun _ => hi, fun h => absurd hf h, fun h => absurd hf h, fun h => absurd hf h⟩
  · exact ⟨_, rfl, fun h => absurd h hf, fun _ _ => hi, fun _ h => absurd hall (hsome h),
      fun _ h => absurd hall (hsome h)⟩
  · exact ⟨_, rfl, fun h => absurd h hf, fun _ h => absurd h hnot, fun _ _ _ => ⟨hi, rfl⟩,
      fun _ _ h => absurd hidle h⟩
  · exact ⟨_, rfl, fun h => absurd h hf, fun _ h => absurd h hnot, fun _ _ h => absurd h hidle,
      fun _ _ _ => ⟨hi, rfl⟩⟩

/-! ### How a run ends -/

/-- An iteration from `p` leaves its core's status as it was and emits nothing (R190). -/
def Pipeline.idles (fuel : Nat) (p : Pipeline) : Prop :=
  ∃ before after, p.cores[p.turn]? = some before ∧ resume fuel before = some after ∧
    after.status = before.status ∧ after.outQ = []

section
variable {fuel rounds : Nat} {p p' q : Pipeline} {e : PipelineEnd}

/-- What each end of a run says of the iteration that ended it. -/
theorem pipelineIterate_ended (h : pipelineIterate fuel p = some (.ended q e)) :
    (∃ c, e = .coreFault q.turn c.faultKind ∧ q.cores[q.turn]? = some c ∧ c.status = .faulted) ∨
    (e = .signal q.final ∧ ∀ c ∈ q.cores, c.status = .halted) ∨
    (e = .deadlock ∧ q.idle = q.cores.length ∧ p.idles fuel ∧ q.idle = p.idle + 1) := by
  obtain ⟨before, after, hb, hr⟩ := pipelineIterate_resumed h
  obtain ⟨hf, hi⟩ | ⟨-, hall, hi⟩ | ⟨-, -, hidle, hi⟩ | ⟨-, -, -, hi⟩ := pipelineIterate_cases hb hr <;>
    rw [hi] at h <;> cases h
  · obtain ⟨c, hc, hs, hk⟩ := Pipeline.moved_turn_status hb after
    exact .inl ⟨c, by rw [hk], hc, hs.trans hf⟩
  · exact .inr (.inl ⟨rfl, hall⟩)
  · refine .inr (.inr ⟨rfl, by rw [Pipeline.moved_length, hidle], ?_⟩)
    obtain ⟨hs, ho, hcount⟩ | ⟨-, hzero⟩ := p.idleAfter_cases before after
    · exact ⟨⟨before, after, hb, hr, hs, ho⟩, hcount⟩
    · have := Pipeline.turn_lt hb
      omega

/-- An iteration after which the loop goes on counts itself when it was idle, and starts the count again when not. -/
theorem pipelineIterate_continued (h : pipelineIterate fuel p = some (.continued p')) :
    (p.idles fuel ∧ p'.idle = p.idle + 1) ∨ p'.idle = 0 := by
  obtain ⟨before, after, hb, hr⟩ := pipelineIterate_resumed h
  obtain ⟨-, hi⟩ | ⟨-, -, hi⟩ | ⟨-, -, -, hi⟩ | ⟨-, -, -, hi⟩ := pipelineIterate_cases hb hr <;>
    rw [hi] at h <;> cases h
  obtain ⟨hs, ho, hcount⟩ | ⟨-, hzero⟩ := p.idleAfter_cases before after
  · exact .inl ⟨⟨before, after, hb, hr, hs, ho⟩, hcount⟩
  · exact .inr hzero

/-- A run that ends is ended by its last iteration. -/
theorem pipelineLoop_last (h : pipelineLoop fuel rounds p = some (q, e)) :
    ∃ last, pipelineIterate fuel last = some (.ended q e) := by
  induction rounds generalizing p with
  | zero => cases h
  | succ rounds ih =>
    obtain hend | ⟨_, p', hrounds, -, hloop⟩ := pipelineLoop_cases h
    · exact ⟨p, hend⟩
    · cases hrounds
      exact ih hloop

/-- The run of `m + 1` iterations from `p` that ended in a deadlock: its last N, or all where there are fewer, were
idle, and with those counted before it they are at least N. -/
structure DeadlockRun (fuel : Nat) (p q : Pipeline) (m : Nat) (run : Nat → Pipeline) : Prop where
  start : run 0 = p
  goesOn : ∀ k, k < m → pipelineIterate fuel (run k) = some (.continued (run (k + 1)))
  ends : pipelineIterate fuel (run m) = some (.ended q .deadlock)
  count : q.cores.length ≤ m + 1 + p.idle
  idle : ∀ k, k ≤ m → m + 1 ≤ k + q.cores.length → (run k).idles fuel

/-- A run with one iteration before it. -/
def consRun (p : Pipeline) (run : Nat → Pipeline) : Nat → Pipeline
  | 0 => p
  | k + 1 => run k

theorem DeadlockRun.single (h : pipelineIterate fuel p = some (.ended q .deadlock)) :
    DeadlockRun fuel p q 0 fun _ => p := by
  obtain ⟨_, he, -⟩ | ⟨he, -⟩ | ⟨-, hfull, hidles, hcount⟩ := pipelineIterate_ended h
  · cases he
  · cases he
  · exact ⟨rfl, nofun, h, by omega, fun _ _ _ => hidles⟩

/-- The iteration put before a run was idle if it is among the last N: were it not, the count would have started from 0
after it and not have reached N. -/
theorem DeadlockRun.cons {m : Nat} {run : Nat → Pipeline} (h : pipelineIterate fuel p = some (.continued p'))
    (hrun : DeadlockRun fuel p' q m run) : DeadlockRun fuel p q (m + 1) (consRun p run) where
  start := rfl
  goesOn k hk := by
    cases k with
    | zero => rw [consRun, consRun, hrun.start]; exact h
    | succ k => exact hrun.goesOn k (Nat.lt_of_succ_lt_succ hk)
  ends := hrun.ends
  count := by
    have hcount := hrun.count
    obtain ⟨-, hidle⟩ | hzero := pipelineIterate_continued h <;> omega
  idle k hk hlast := by
    cases k with
    | zero =>
      have hcount := hrun.count
      obtain ⟨hidles, -⟩ | hzero := pipelineIterate_continued h
      · exact hidles
      · omega
    | succ k => exact hrun.idle k (Nat.le_of_succ_le_succ hk) (by omega)

theorem pipelineLoop_deadlock (h : pipelineLoop fuel rounds p = some (q, .deadlock)) :
    ∃ m run, DeadlockRun fuel p q m run := by
  induction rounds generalizing p with
  | zero => cases h
  | succ rounds ih =>
    obtain hend | ⟨_, p', hrounds, hnext, hloop⟩ := pipelineLoop_cases h
    · exact ⟨0, _, .single hend⟩
    · cases hrounds
      obtain ⟨m, run, hrun⟩ := ih hloop
      exact ⟨m + 1, _, hrun.cons hnext⟩

end

/-- Settles O59: the last iteration says which end the run has, and for a deadlock the iterations before it are
followed back. -/
theorem pipelineEndsForItsReasons : Obligations.PipelineEndsForItsReasons := by
  intro fuel rounds p q e h
  obtain ⟨last, hlast⟩ := pipelineLoop_last h
  obtain ⟨c, rfl, hc, hs⟩ | ⟨rfl, hall⟩ | ⟨rfl, hfull, -⟩ := pipelineIterate_ended hlast
  · refine ⟨nofun, ?_, nofun⟩
    rintro _ _ ⟨⟩
    exact ⟨rfl, c, hc, hs, rfl⟩
  · refine ⟨?_, nofun, nofun⟩
    rintro _ ⟨⟩
    exact ⟨rfl, hall⟩
  · refine ⟨nofun, nofun, fun _ => ⟨hfull, ?_⟩⟩
    obtain ⟨m, run, hrun⟩ := pipelineLoop_deadlock h
    exact ⟨m, run, hrun.start, hrun.goesOn, hrun.ends, hrun.count, hrun.idle⟩

end Sys2Proof.Machine
end
